-- ==== Sys2Proof/Word.lean ====
section
/-! DEFINITION. The value types of the block (00_scope.md R9, R10, R11): bits, characters, strings and
4-bit vectors. -/

namespace Sys2Proof

/-- A bit (R9): `false` is 0 and `true` is 1; `^^`, `&&` and `||` are the spec's `^`, `&` and `|`. -/
abbrev Bit := Bool

/-- A character (R10). Lean's characters include the ten digit characters, distinct from one another
and from every other character; its port code is a matter of Decode (R52). -/
abbrev Chr := Char

/-- A string (R10): a finite sequence of characters, index 0 the first one as written. -/
abbrev Str := List Chr

/-- A `BitVector4` (R11), held as the spec's `bv(v)`: bit `k` has weight `2^k`, so the source's index
`i` (0 the most significant) is bit `3 - i`, which is `BitVec.getMsbD v i`. -/
abbrev Vec4 := BitVec 4

end Sys2Proof
end

