-- ==== Sys2Proof/Config.lean ====
section
/-! DEFINITION. The implementation parameters (00_scope.md R7, R8). The operand width (`WIDTH = 4`, R7)
and the character code width (`CHAR_BITS = 8`, R8) are fixed; `STR_MAX` and `VW` are open. -/

namespace Sys2Proof

/-- The open parameters of an instance of the block (R8, decision D6): the reference semantics has no
capacity bound; a bounded instance has `STR_MAX` characters a string port and `VW` bits of `r_val`. -/
inductive Instance where
  | unbounded
  | bounded (strMax vw : Nat)
  deriving DecidableEq, Repr

/-- R8's constraints on a bounded instance: `STR_MAX >= 5` and `VW >= 5`. -/
def Instance.legal : Instance → Bool
  | .unbounded => true
  | .bounded strMax vw => decide (5 ≤ strMax) && decide (5 ≤ vw)

/-- `CHAR_BITS` (R8, decision D5). -/
def Config.charBits : Nat := 8

/-- `LW` (R51): the least number of bits that can hold the value `STR_MAX`. -/
def Config.lenWidth (strMax : Nat) : Nat := if strMax = 0 then 0 else strMax.log2 + 1

end Sys2Proof
end

