-- ==== Sys2Proof/Syntax.lean ====
section
/-! DEFINITION. The six operations (00_scope.md R14), the command ports that carry them (30_encoding.md
R51) and what one clock cycle presents (70_reset_and_hazards.md R113, R122). -/

namespace Sys2Proof

/-- One constructor per row of the operation select map (R58), with the operands of its format (R50). -/
inductive Instr where
  /-- `RCA_ADD a, b` (R70). -/
  | rcaAdd (a b : Str)
  /-- `CLA_SET a, b, cin` (R76). -/
  | claSet (a b : Str) (cin : Bit)
  /-- `CLA_COMPUTE` (R77). -/
  | claCompute
  /-- `CLA_GET` (R78). -/
  | claGet
  /-- `BIN2DEC t` (R88). -/
  | bin2dec (t : Str)
  /-- `DEC2BIN t` (R89). -/
  | dec2bin (t : Str)
  deriving DecidableEq, Repr

/-- The command ports (R51): operation select, two string ports and the carry-in bit. A string port is
a length and a bus whose bits `8*j+7 .. 8*j` carry character `j` (R53). The bus's width `8 * STR_MAX`
depends on the instance, so bus and length are numbers and `Command.onPorts` states the bounds. -/
structure Command where
  op    : BitVec 3
  s1Len : Nat
  s1Chr : Nat
  s2Len : Nat
  s2Chr : Nat
  cin   : Bit
  deriving DecidableEq, Repr

/-- The inputs of one clock cycle: `rst` (R113), `op_valid` and the command ports (R51). -/
structure Cycle where
  rst     : Bool
  opValid : Bool
  cmd     : Command
  deriving DecidableEq, Repr

/-- What decoding a command gives (R68): one of the six operations with its operands, or "reserved". -/
inductive Decoded where
  | op (i : Instr)
  /-- A reserved operation select, 6 or 7 (R59), named by its value. -/
  | reserved (select : BitVec 3)
  deriving DecidableEq, Repr

end Sys2Proof
end

