-- ==== Sys2Proof/WellFormed.lean ====
section
/-! DEFINITION. Which operations can be put on the command ports: every character has an 8-bit code
(30_encoding.md R52), and in a bounded instance every value fits its port (R51). -/

namespace Sys2Proof

/-- The character has an 8-bit port code (R52). -/
def Chr.hasCode (c : Chr) : Bool := decide (c.toNat < 256)

/-- Every character of the string has an 8-bit port code. -/
def Str.hasCodes (t : Str) : Bool := t.all Chr.hasCode

/-- Every string operand is made of characters with a port code. Operand VALUES are not checked here:
an invalid operand is the operation's own `InvalidInput`, not an illegal encoding (R60, R68). -/
def Instr.wf : Instr → Bool
  | .rcaAdd a b => Str.hasCodes a && Str.hasCodes b
  | .claSet a b _ => Str.hasCodes a && Str.hasCodes b
  | .claCompute => true
  | .claGet => true
  | .bin2dec t => Str.hasCodes t
  | .dec2bin t => Str.hasCodes t

/-- A well-formed operation: one that the command ports can carry. -/
abbrev WellFormed (i : Instr) : Prop := i.wf = true

/-- The command's values fit the ports of the instance (R51); the unbounded instance has no port
widths, so there every value fits. -/
def Command.onPorts (inst : Instance) (c : Command) : Bool :=
  match inst with
  | .unbounded => true
  | .bounded strMax _ =>
    decide (c.s1Len < 2 ^ Config.lenWidth strMax) &&
    decide (c.s1Chr < 2 ^ (Config.charBits * strMax)) &&
    decide (c.s2Len < 2 ^ Config.lenWidth strMax) &&
    decide (c.s2Chr < 2 ^ (Config.charBits * strMax))

end Sys2Proof
end

