-- ==== Sys2Proof/Decode.lean ====
section
/-! DEFINITION. Decoding a presented command (30_encoding.md R68), total and independent of the state,
and its inverse, the encoder, written from the same rules (R50, R52, R53, R58). -/

namespace Sys2Proof

/-- The character of an 8-bit code (R52): `0x30` to `0x39` are the digits '0' to '9'; every other code
is a character that is not a digit, here the one with that number. -/
def chrOfCode (code : Nat) : Chr := Char.ofNat (code % 256)

/-- The 8-bit code of a character (R52). -/
def codeOfChr (c : Chr) : Nat := c.toNat % 256

/-- The string a port carries (R53): character 0 in the lowest 8 bits of the bus, bits at positions
`len` and above ignored. -/
def strOfBus : Nat → Nat → Str
  | 0, _ => []
  | len + 1, bus => chrOfCode bus :: strOfBus len (bus / 256)

/-- The bus value of a string (R53), with zeros at positions `len` and above. -/
def busOfStr : Str → Nat
  | [] => 0
  | c :: t => codeOfChr c + 256 * busOfStr t

/-- The operand string on port `s1`. -/
def Command.s1 (c : Command) : Str := strOfBus c.s1Len c.s1Chr

/-- The operand string on port `s2`. -/
def Command.s2 (c : Command) : Str := strOfBus c.s2Len c.s2Chr

/-- R68: read `op`; a select of R58's table takes the fields its format uses (R50); 6 and 7 are
reserved (R59). -/
def decode (c : Command) : Decoded :=
  match c.op.toNat with
  | 0 => .op (.rcaAdd c.s1 c.s2)
  | 1 => .op (.claSet c.s1 c.s2 c.cin)
  | 2 => .op .claCompute
  | 3 => .op .claGet
  | 4 => .op (.bin2dec c.s1)
  | 5 => .op (.dec2bin c.s1)
  | _ => .reserved c.op

/-- The operation select of each operation (R58). -/
def selectOf : Instr → BitVec 3
  | .rcaAdd _ _ => 0b000
  | .claSet _ _ _ => 0b001
  | .claCompute => 0b010
  | .claGet => 0b011
  | .bin2dec _ => 0b100
  | .dec2bin _ => 0b101

/-- A command with the given select and operands on its ports (R51, R53). -/
def commandOf (op : BitVec 3) (a b : Str) (cin : Bit) : Command :=
  { op := op, s1Len := a.length, s1Chr := busOfStr a, s2Len := b.length, s2Chr := busOfStr b, cin := cin }

/-- The command that presents an operation, with zeros in the fields its format ignores (R50, R60). -/
def encode (i : Instr) : Command :=
  match i with
  | .rcaAdd a b => commandOf (selectOf i) a b false
  | .claSet a b cin => commandOf (selectOf i) a b cin
  | .claCompute => commandOf (selectOf i) [] [] false
  | .claGet => commandOf (selectOf i) [] [] false
  | .bin2dec t => commandOf (selectOf i) t [] false
  | .dec2bin t => commandOf (selectOf i) t [] false

/-- The command of an opcode-table word. The table numbers only the three bits of `op` (bits 2..0);
the other ports are given no bits there and are 0: empty strings and carry-in 0 (log 11). -/
def tableCommand (nbits w : Nat) : Command :=
  { op := BitVec.ofNat 3 (w % 2 ^ nbits), s1Len := 0, s1Chr := 0, s2Len := 0, s2Chr := 0, cin := false }

/-- What the decoder reads from an opcode-table word (log 11). -/
def decodeTableWord (nbits w : Nat) : Option Instr :=
  match decode (tableCommand nbits w) with
  | .op i => some i
  | .reserved _ => none

end Sys2Proof
end

