-- ==== Sys2Proof/Machine/State.lean ====
section
/-! DEFINITION. The machine's state as plain data (10_state.md R17, R18), the outcomes of operations
(00_scope.md R13), and why a step can stop. -/

namespace Sys2Proof.Machine

/-- The CLA register set (R18): all 22 bits of state the block has (R17). -/
structure ClaRegs where
  A    : Vec4
  B    : Vec4
  Cin  : Bit
  P    : Vec4
  G    : Vec4
  Sum  : Vec4
  Cout : Bit
  deriving DecidableEq, Repr

/-- The reset values (R30, R32): every bit 0. They are the spec's own decision D8 (log 6). -/
def ClaRegs.reset : ClaRegs :=
  { A := 0, B := 0, Cin := false, P := 0, G := 0, Sum := 0, Cout := false }

/-- The result values of the operations (30_encoding.md R62, R63). -/
inductive Result where
  /-- No result value: `CLA_SET`, `CLA_COMPUTE`. -/
  | unit
  /-- A string: `RCA_ADD`, `DEC2BIN`. -/
  | str (t : Str)
  /-- `(sumBits, carryOut)`: `CLA_GET`. -/
  | pair (sumBits carryOut : Str)
  /-- A natural number: `BIN2DEC`. -/
  | int (n : Nat)
  deriving DecidableEq, Repr

/-- The outcome of an operation (00_scope.md R13): `Ok(result)` or `Err(InvalidInput)`. The error
carries neither a cause class nor a text (60_exceptions.md R96, R102). -/
inductive OpOutcome where
  | ok (r : Result)
  | invalidInput
  deriving DecidableEq, Repr

/-- The machine. `cla` is all the state the block has (R17). The other three fields are the model's
own: the parameters of the instance (R8; fixed, log 3), the clock cycles the host will present, the
next one first (R124; log 1), and what the response ports say about the cycle just run, `none` being
`res_valid = 0` (R54, R103; log 2). -/
structure State where
  cla      : ClaRegs
  inst     : Instance
  inputs   : List Cycle
  response : Option OpOutcome
  deriving DecidableEq, Repr

/-- Right after reset (R32, R113): the registers at their reset values, the reset cycle answered by
`res_valid = 0`, the reference instance (R8, D6), and nothing presented yet. -/
def State.reset : State :=
  { cla := ClaRegs.reset, inst := .unbounded, inputs := [], response := none }

/-- There is no way for the machine to stop with a fault: `InvalidInput` is an outcome after which
the block goes on (00_scope.md R13, 60_exceptions.md R100), and the spec names nothing else. -/
inductive Fault where
  deriving DecidableEq, Repr

/-- Why the model gives a command no step. -/
inductive Refusal where
  /-- Raised by `exec`'s arm of an operation that has no meaning yet. Safe. No arm uses it. -/
  | notModelled (mnemonic : String)
  /-- Raised by `step` on a command with the reserved operation select 6 or 7 (R59, U1: a model
  refuses it). Safe. -/
  | reservedSelect (select : BitVec 3)
  /-- Raised by a meaning in a bounded instance whose `STR_MAX` or `VW` an operand, a result or the
  integer it goes through exceeds (R94, U2: a model refuses it). Safe. Never on the unbounded
  instance. -/
  | outsideCapacity
  deriving DecidableEq, Repr

end Sys2Proof.Machine
end

