-- ==== Sys2Proof/Machine/Operands.lean ====
section
/-! DEFINITION. Operand forms: characters to bits and digits (00_scope.md R10), strings to vectors and
back (R11), the adders' precondition (60_exceptions.md R97), numerals and their values
(42_binary_decimal_converter.md R88 to R91), and what fits an instance (R94). -/

namespace Sys2Proof.Machine

/-- `chr2bit` (R10), undefined on every character but '0' and '1'. -/
def chr2bit (c : Chr) : Option Bit :=
  if c = '0' then some false else if c = '1' then some true else none

/-- `bit2chr` (R10). -/
def bit2chr (b : Bit) : Chr := if b then '1' else '0'

/-- The ten digit characters in the order of the numbers they denote (R10). -/
def digitChrs : Str := ['0', '1', '2', '3', '4', '5', '6', '7', '8', '9']

/-- `digit` (R10): the place of the character among the ten digit characters, and undefined on every
other character. -/
def digit (c : Chr) : Option Nat := digitChrs.idxOf? c

/-- `v[i]` in the source's index order (R11): index 0 is the most significant bit. -/
def bitAt (v : Vec4) (i : Nat) : Bit := v.getMsbD i

/-- The vector `b0 b1 b2 b3` written in index order, of value `8*b0 + 4*b1 + 2*b2 + b3` (R11). -/
def vecOf (b0 b1 b2 b3 : Bit) : Vec4 :=
  BitVec.ofNat 4 (8 * b0.toNat + 4 * b1.toNat + 2 * b2.toNat + b3.toNat)

/-- `str4` (R11). -/
def str4 (v : Vec4) : Str :=
  [bit2chr (bitAt v 0), bit2chr (bitAt v 1), bit2chr (bitAt v 2), bit2chr (bitAt v 3)]

/-- `valid4` (R97): exactly 4 characters, each '0' or '1'. -/
def valid4 (t : Str) : Bool := decide (t.length = 4) && t.all (fun c => (chr2bit c).isSome)

/-- `vec4` (R11, R55), defined only when `valid4` holds. -/
def vec4 (t : Str) : Option Vec4 :=
  match t with
  | [c0, c1, c2, c3] =>
    match chr2bit c0, chr2bit c1, chr2bit c2, chr2bit c3 with
    | some b0, some b1, some b2, some b3 => some (vecOf b0 b1 b2 b3)
    | _, _, _, _ => none
  | _ => none

/-- The digit values of a string in the given digit characters; none when a character is no digit. -/
def digitList (f : Chr → Option Nat) : Str → Option (List Nat)
  | [] => some []
  | c :: t =>
    match f c, digitList f t with
    | some d, some ds => some (d :: ds)
    | _, _ => none

/-- The digits of a numeral: none for the empty string and for a string with any other character
(R88, R91). -/
def digitsOf (f : Chr → Option Nat) (t : Str) : Option (List Nat) :=
  if t.isEmpty then none else digitList f t

/-- The value of a digit list in a base, most significant digit first (R36, R88, R89). -/
def positional (base : Nat) (ds : List Nat) : Nat := ds.foldl (fun n d => base * n + d) 0

/-- The digit of a base-2 numeral. -/
def bitDigit (c : Chr) : Option Nat := (chr2bit c).map Bool.toNat

/-- `BIN2DEC`'s precondition (R88): not empty, and every character is '0' or '1'. -/
def binaryNumeral (t : Str) : Bool := !t.isEmpty && t.all (fun c => (chr2bit c).isSome)

/-- The value of a base-2 numeral (R88); none when the precondition of `BIN2DEC` fails. -/
def binValue (t : Str) : Option Nat :=
  (digitsOf bitDigit t).map (positional 2)

/-- `decimal_numeral` (R91, decision D13; log 10). -/
def decimalNumeral (t : Str) : Bool := !t.isEmpty && t.all (fun c => (digit c).isSome)

/-- The value of a base-10 numeral (R89); none when it is not a `decimalNumeral`. -/
def decValue (t : Str) : Option Nat := (digitsOf digit t).map (positional 10)

/-- R90's loop: while `n > 0`, put the character of `n mod 2` in front and halve `n`; the first
argument bounds the number of rounds. -/
def minbinLoop : Nat → Nat → Str → Str
  | 0, _, r => r
  | rounds + 1, n, r =>
    if n = 0 then r else minbinLoop rounds (n / 2) (bit2chr (decide (n % 2 = 1)) :: r)

/-- `minbin` (R90): the shortest base-2 numeral of `n`, and "0" for 0 (decision D14; log 10). -/
def minbin (n : Nat) : Str := if n = 0 then ['0'] else minbinLoop (n.log2 + 1) n []

/-- The string fits a string port of the instance (R94). -/
def holdsStr (inst : Instance) (t : Str) : Bool :=
  match inst with
  | .unbounded => true
  | .bounded strMax _ => decide (t.length ≤ strMax)

/-- The integer fits the instance (R94): it is less than `2^VW`. -/
def holdsInt (inst : Instance) (n : Nat) : Bool :=
  match inst with
  | .unbounded => true
  | .bounded _ vw => decide (n < 2 ^ vw)

/-- The result fits the response ports of the instance (R54, R94); `carryOut` is one character. -/
def holdsResult (inst : Instance) (r : Result) : Bool :=
  match r with
  | .unit => true
  | .str t => holdsStr inst t
  | .pair sumBits _ => holdsStr inst sumBits
  | .int n => holdsInt inst n

end Sys2Proof.Machine
end

