-- ==== Sys2Proof/Machine/Flags.lean ====
section
/-! DEFINITION. The carry and sum computations of the two adders. The block has no flag register
(10_state.md R25); its only carries are the RCA's running carry (40_ripple_carry_adder.md R70) and the
CLA's `Cout` (41_carry_lookahead_adder.md R77). -/

namespace Sys2Proof.Machine

/-- R70: the sum bit of one position, from the carry before the position's update. -/
def rcaSumBit (x y carry : Bit) : Bit := (x ^^ y) ^^ carry

/-- R70: the carry out of one position. -/
def rcaCarryBit (x y carry : Bit) : Bit := (x && y) || ((x ^^ y) && carry)

/-- One round of R70's loop at index `i`: the new carry, and this position's sum bit put in front of
the bits of the less significant positions. -/
def rcaRound (a b : Vec4) (acc : Bit × List Bit) (i : Nat) : Bit × List Bit :=
  (rcaCarryBit (bitAt a i) (bitAt b i) acc.1, rcaSumBit (bitAt a i) (bitAt b i) acc.1 :: acc.2)

/-- R70's loop, index 3 first, carry 0 at the start (no carry-in, R74): the final carry and the sum
bits in index order. -/
def rcaLoop (a b : Vec4) : Bit × List Bit := [3, 2, 1, 0].foldl (rcaRound a b) (false, [])

/-- R70's result: the four sum characters, with a '1' in front exactly when the final carry is 1. -/
def rcaResult (a b : Vec4) : Str :=
  if (rcaLoop a b).1 then '1' :: (rcaLoop a b).2.map bit2chr else (rcaLoop a b).2.map bit2chr

/-- R77: `P[i] = A[i] ^ B[i]`. -/
def claPropagate (a b : Vec4) : Vec4 :=
  vecOf (bitAt a 0 ^^ bitAt b 0) (bitAt a 1 ^^ bitAt b 1) (bitAt a 2 ^^ bitAt b 2) (bitAt a 3 ^^ bitAt b 3)

/-- R77: `G[i] = A[i] & B[i]`. -/
def claGenerate (a b : Vec4) : Vec4 :=
  vecOf (bitAt a 0 && bitAt b 0) (bitAt a 1 && bitAt b 1) (bitAt a 2 && bitAt b 2) (bitAt a 3 && bitAt b 3)

/-- R77, R79: `Sum[i] = P[i] ^ Cin`, the same `Cin` at all four positions. -/
def claSum (p : Vec4) (cin : Bit) : Vec4 :=
  vecOf (bitAt p 0 ^^ cin) (bitAt p 1 ^^ cin) (bitAt p 2 ^^ cin) (bitAt p 3 ^^ cin)

/-- R77, R80: the carry-out expression, letter for letter. It is not an arithmetic carry (R81). -/
def claCout (p g : Vec4) : Bit :=
  bitAt g 3
  || (bitAt g 2 && bitAt p 3)
  || (bitAt g 1 && bitAt p 2 && bitAt p 3)
  || (bitAt g 0 && bitAt p 1 && bitAt p 2 && bitAt p 3)

end Sys2Proof.Machine
end

