-- ==== Sys2Proof/Machine/Ops.lean ====
section
/-! DEFINITION. The named operations over the state: the register writes of the CLA unit, delivering an
outcome, the one exception, and what a clock cycle without a command does. -/

namespace Sys2Proof.Machine

/-- The register write of `CLA_SET` (R76): `A`, `B` and `Cin`, all 9 bits. -/
def ClaRegs.storeOperands (r : ClaRegs) (a b : Vec4) (cin : Bit) : ClaRegs :=
  { r with A := a, B := b, Cin := cin }

/-- The register write of `CLA_COMPUTE` (R77): `P` and `G` from `A` and `B`; `Sum` and `Cout` from the
`P` and `G` written here. -/
def ClaRegs.storeSignals (r : ClaRegs) : ClaRegs :=
  { r with
    P := claPropagate r.A r.B
    G := claGenerate r.A r.B
    Sum := claSum (claPropagate r.A r.B) r.Cin
    Cout := claCout (claPropagate r.A r.B) (claGenerate r.A r.B) }

/-- The state with other register contents. -/
def State.withCla (s : State) (r : ClaRegs) : State := { s with cla := r }

/-- The state with another answer on the response ports. -/
def State.withResponse (s : State) (o : Option OpOutcome) : State := { s with response := o }

/-- The state with another list of cycles still to be presented. -/
def State.withInputs (s : State) (cs : List Cycle) : State := { s with inputs := cs }

/-- Outcome `Ok(r)` (00_scope.md R12, R13). A result that the instance cannot carry is outside its
capacity (R94). -/
def deliver (r : Result) (s : State) : Host.Outcome State Fault Refusal :=
  if holdsResult s.inst r then .next (s.withResponse (some (.ok r))) else .refused .outsideCapacity

/-- TAKING THE EXCEPTION, `raise InvalidInput` (60_exceptions.md R100): outcome `Err(InvalidInput)`, no
register written, no result, nothing saved, no handler. There is no return from it (R107). -/
def raiseInvalidInput (s : State) : Host.Outcome State Fault Refusal :=
  .next (s.withResponse (some .invalidInput))

/-- Runs the rest of an operation on string operands that the instance can carry (R94). -/
def withOperands (ts : List Str) (s : State) (rest : Host.Outcome State Fault Refusal) :
    Host.Outcome State Fault Refusal :=
  if ts.all (holdsStr s.inst) then rest else .refused .outsideCapacity

/-- A clock cycle without a command (70_reset_and_hazards.md R122): registers hold, `res_valid = 0`. -/
def idle (s : State) : State := s.withResponse none

/-- A clock edge with `rst = 1` (R113): the registers take their reset values and a command presented
in the cycle gets `res_valid = 0`. -/
def resetEdge (s : State) : State := (s.withCla ClaRegs.reset).withResponse none

end Sys2Proof.Machine
end

