-- ==== Sys2Proof/Machine/Cla.lean ====
section
/-! DEFINITION. The carry-look-ahead adder unit (41_carry_lookahead_adder.md). Its outputs are not the
arithmetic sum and carry (R79, R81, R83); the printed equations are the behaviour. -/

namespace Sys2Proof.Machine

/-- `CLA_SET a, b, cin` (R76): validation first; on success `A`, `B`, `Cin` are stored and nothing else
is; on failure no register is written (R34). -/
def execClaSet (a b : Str) (cin : Bit) (s : State) : Host.Outcome State Fault Refusal :=
  withOperands [a, b] s
    (match vec4 a, vec4 b with
    | some va, some vb => deliver .unit (s.withCla (s.cla.storeOperands va vb cin))
    | _, _ => raiseInvalidInput s)

/-- `CLA_COMPUTE` (R77), on whatever `A`, `B`, `Cin` hold (R118). -/
def execClaCompute (s : State) : Host.Outcome State Fault Refusal :=
  deliver .unit (s.withCla s.cla.storeSignals)

/-- `CLA_GET` (R78): a pure read of `Sum` and `Cout`, whatever they hold (R118). -/
def execClaGet (s : State) : Host.Outcome State Fault Refusal :=
  deliver (.pair (str4 s.cla.Sum) [bit2chr s.cla.Cout]) s

/-- Runs `f` on the next state of an outcome whose operation ended in `Ok`; an `Err` ends the sequence. -/
def thenIfOk (o : Host.Outcome State Fault Refusal) (f : State → Host.Outcome State Fault Refusal) :
    Host.Outcome State Fault Refusal :=
  match o with
  | .next s =>
    match s.response with
    | some (.ok _) => f s
    | _ => .next s
  | .fault r => .fault r
  | .refused r => .refused r

/-- The pseudo-operation `CLA_ADD a, b, cin` (30_encoding.md R66): `CLA_SET`; then, only if that ended
in `Ok`, `CLA_COMPUTE` and `CLA_GET`. It has no operation select of its own. -/
def claAdd (a b : Str) (cin : Bit) (s : State) : Host.Outcome State Fault Refusal :=
  thenIfOk (thenIfOk (execClaSet a b cin s) execClaCompute) execClaGet

end Sys2Proof.Machine
end

