-- ==== Sys2Proof/Machine/Conv.lean ====
section
/-! DEFINITION. The binary/decimal converter unit (42_binary_decimal_converter.md). -/

namespace Sys2Proof.Machine

/-- `BIN2DEC t` (R88): the value of a base-2 numeral of any length of 1 or more. -/
def execBin2Dec (t : Str) (s : State) : Host.Outcome State Fault Refusal :=
  withOperands [t] s
    (match binValue t with
    | some n => deliver (.int n) s
    | none => raiseInvalidInput s)

/-- `DEC2BIN t` (R89): the shortest base-2 numeral of a base-10 numeral's value. The value is one of
the integers involved, so a bounded instance must hold it (R94; log 5). -/
def execDec2Bin (t : Str) (s : State) : Host.Outcome State Fault Refusal :=
  withOperands [t] s
    (match decValue t with
    | some n => if holdsInt s.inst n then deliver (.str (minbin n)) s else .refused .outsideCapacity
    | none => raiseInvalidInput s)

end Sys2Proof.Machine
end

