-- ==== Sys2Proof/Machine/Rca.lean ====
section
/-! DEFINITION. The ripple-carry adder unit (40_ripple_carry_adder.md). -/

namespace Sys2Proof.Machine

/-- `RCA_ADD a, b` (R70): validation first, then the loop's result. It reads and writes no register. -/
def execRcaAdd (a b : Str) (s : State) : Host.Outcome State Fault Refusal :=
  withOperands [a, b] s
    (match vec4 a, vec4 b with
    | some va, some vb => deliver (.str (rcaResult va vb)) s
    | _, _ => raiseInvalidInput s)

end Sys2Proof.Machine
end

