-- ==== Sys2Proof/Machine/Dispatch.lean ====
section
/-! DEFINITION. The meaning of every operation (30_encoding.md R58), one arm per constructor. -/

namespace Sys2Proof.Machine

def exec (i : Instr) (s : State) : Host.Outcome State Fault Refusal :=
  match i with
  | .rcaAdd a b => Sys2Proof.Machine.execRcaAdd a b s
  | .claSet a b cin => Sys2Proof.Machine.execClaSet a b cin s
  | .claCompute => Sys2Proof.Machine.execClaCompute s
  | .claGet => Sys2Proof.Machine.execClaGet s
  | .bin2dec t => Sys2Proof.Machine.execBin2Dec t s
  | .dec2bin t => Sys2Proof.Machine.execDec2Bin t s

end Sys2Proof.Machine
end

