-- ==== Sys2Proof/Machine/Clock.lean ====
section
/-! DEFINITION. One clock cycle of the block (00_scope.md R15, 70_reset_and_hazards.md R113, R122) and
where its command comes from. There is no program counter and no stored program (10_state.md R24). -/

namespace Sys2Proof.Machine

/-- A cycle that presents a command. -/
def commandCycle (c : Command) : Cycle := { rst := false, opValid := true, cmd := c }

/-- A cycle in which the host presents nothing (R122, R124). -/
def quietCycle : Cycle := { rst := false, opValid := false, cmd := commandOf 0 [] [] false }

/-- The cycle the host presents next; quiet when it has presented all it will (log 1). -/
def nextCycle (s : State) : Cycle :=
  match s.inputs with
  | [] => quietCycle
  | c :: _ => c

/-- The state once the next cycle has been taken from the host. -/
def afterTake (s : State) : State := s.withInputs s.inputs.tail

/-- The command of a cycle decoded (R68) and run; a reserved select is refused (R59, U1; log 4). -/
def runCommand (c : Command) (s : State) : Host.Outcome State Fault Refusal :=
  match decode c with
  | .op i => exec i s
  | .reserved select => .refused (.reservedSelect select)

/-- One clock cycle: reset wins over a command (R113), and without `op_valid` nothing happens (R122). -/
def runCycle (c : Cycle) (s : State) : Host.Outcome State Fault Refusal :=
  if c.rst then .next (resetEdge s)
  else if c.opValid then runCommand c.cmd s
  else .next (idle s)

/-- The host presents a command before all else it was going to present. -/
def presentFirst (c : Command) (s : State) : State := s.withInputs (commandCycle c :: s.inputs)

end Sys2Proof.Machine
end

