-- ==== Sys2Proof/Machine/Step.lean ====
section
/-! DEFINITION. One step of the machine: one clock cycle, with the inputs the host presents next. -/

namespace Sys2Proof.Machine

/-- One step (00_scope.md R15, 70_reset_and_hazards.md R122). -/
def step (s : State) : Host.Outcome State Fault Refusal := runCycle (nextCycle s) (afterTake s)

/-- The very next step runs the command of an opcode-table word (log 11). -/
def State.withFetchWord (s : State) (nbits w : Nat) : State := presentFirst (tableCommand nbits w) s

end Sys2Proof.Machine
end

