-- ==== Sys2Proof/Machine/Ports.lean ====
section
/-! DEFINITION. The response ports (30_encoding.md R54, 60_exceptions.md R103), as a view of the
outcome that State holds. -/

namespace Sys2Proof.Machine

/-- The response ports of a cycle. `none` is a port with no specified value (decision D17, U5: a model
gives it no value; log 2). -/
structure RespPorts where
  resValid : Bool
  err      : Option Bool
  rLen     : Option Nat
  rChr     : Option Nat
  rCout    : Option Nat
  rVal     : Option Nat
  deriving DecidableEq, Repr

/-- The ports of an `Ok` outcome whose result they do not carry. -/
def okPorts : RespPorts :=
  { resValid := true, err := some false, rLen := none, rChr := none, rCout := none, rVal := none }

/-- The ports that carry a result string (R53's layout). R53 gives the bits of the bus at the character
positions `r_len` and above no value; that they are 0 here is the model's choice (DESIGN CHOICE, log 19). -/
def okStrPorts (t : Str) : RespPorts :=
  { okPorts with rLen := some t.length, rChr := some (busOfStr t) }

/-- What the response ports carry (R54, R63, R103). -/
def respPorts (response : Option OpOutcome) : RespPorts :=
  match response with
  | none => { okPorts with resValid := false, err := none }
  | some .invalidInput => { okPorts with err := some true }
  | some (.ok .unit) => okPorts
  | some (.ok (.str t)) => okStrPorts t
  | some (.ok (.pair sumBits carryOut)) =>
    { okStrPorts sumBits with rCout := carryOut.head?.map codeOfChr }
  | some (.ok (.int n)) => { okPorts with rVal := some n }

end Sys2Proof.Machine
end

