-- ==== Sys2Proof/Safety.lean ====
section
/-! DEFINITION. The terms claims are stated in: when an operation is invalid (60_exceptions.md R98),
when an instance can carry it (42_binary_decimal_converter.md R94), what every reachable register
contents has in common (10_state.md R33), and sequences of operations (70_reset_and_hazards.md R116,
R119, R124). -/

namespace Sys2Proof.Machine

/-- The cause classes of `InvalidInput` (R96, R98). They are descriptive only and visible at no port
(decision D12). -/
inductive CauseClass where
  | wrongLength
  | nonBinaryCharacter
  | isEmpty
  | nonNumericString
  deriving DecidableEq, Repr

/-- What is wrong with an adder operand (R97, R98). -/
def adderCauses (t : Str) : List CauseClass :=
  (if t.length = 4 then [] else [.wrongLength])
  ++ (if t.all (fun c => (chr2bit c).isSome) then [] else [.nonBinaryCharacter])

/-- The causes that hold for an operation, by R98's table. -/
def causes : Instr → List CauseClass
  | .rcaAdd a b => adderCauses a ++ adderCauses b
  | .claSet a b _ => adderCauses a ++ adderCauses b
  | .claCompute => []
  | .claGet => []
  | .bin2dec t =>
    (if t.isEmpty then [.isEmpty] else [])
    ++ (if t.all (fun c => (chr2bit c).isSome) then [] else [.nonBinaryCharacter])
  | .dec2bin t => if decimalNumeral t then [] else [.nonNumericString]

/-- R98's table: the operations that raise `InvalidInput`. -/
def raises : Instr → Bool
  | .rcaAdd a b => !valid4 a || !valid4 b
  | .claSet a b _ => !valid4 a || !valid4 b
  | .claCompute => false
  | .claGet => false
  | .bin2dec t => !binaryNumeral t
  | .dec2bin t => !decimalNumeral t

/-- The requirement that the error message names, where the source gives a wording (R102). It is the
host's text, not the block's; for the other operations no source gives any (log 12). -/
def requirementWording : Instr → Option String
  | .rcaAdd _ _ => some "must be 4-bit binary strings"
  | .claSet _ _ _ => none
  | .claCompute => none
  | .claGet => none
  | .bin2dec _ => none
  | .dec2bin _ => none

/-- R94: every string and every integer involved in the operation fits the instance. Results of the
adders have at most 5 characters, which every legal instance holds (R8). -/
def within (inst : Instance) : Instr → Bool
  | .rcaAdd a b => holdsStr inst a && holdsStr inst b
  | .claSet a b _ => holdsStr inst a && holdsStr inst b
  | .claCompute => true
  | .claGet => true
  | .bin2dec t => holdsStr inst t && ((binValue t).all (holdsInt inst))
  | .dec2bin t =>
    holdsStr inst t && ((decValue t).all (fun n => holdsInt inst n && holdsStr inst (minbin n)))

/-- The operation reads or writes CLA registers (R19); the RCA and CONV operations do not (R119). -/
def usesCla : Instr → Bool
  | .rcaAdd _ _ => false
  | .claSet _ _ _ => true
  | .claCompute => true
  | .claGet => true
  | .bin2dec _ => false
  | .dec2bin _ => false

/-- R33's equations: the four result registers are those of the operands now held. -/
def ClaRegs.Coherent (r : ClaRegs) : Prop :=
  r.P = claPropagate r.A r.B ∧ r.G = claGenerate r.A r.B
  ∧ r.Sum = claSum r.P r.Cin ∧ r.Cout = claCout r.P r.G

/-- The four result registers are those of SOME operands and carry-in: what every register contents
that a reset or a `CLA_COMPUTE` left has, and no `CLA_SET` takes away. -/
def ClaRegs.ResultsOfSomeOperands (r : ClaRegs) : Prop :=
  ∃ a b : Vec4, ∃ cin : Bit, r.P = claPropagate a b ∧ r.G = claGenerate a b
    ∧ r.Sum = claSum r.P cin ∧ r.Cout = claCout r.P r.G

/-- Every character of the string is '0' or '1'. -/
def isBinary (t : Str) : Bool := t.all (fun c => (chr2bit c).isSome)

/-- The result is one that an operation can deliver: its characters are '0' and '1' (R62), its strings
have the lengths R62 gives, and it fits the response ports (R54, R94). -/
def Result.proper (inst : Instance) : Result → Bool
  | .unit => true
  | .str t => isBinary t && !t.isEmpty && holdsStr inst t
  | .pair sumBits carryOut => isBinary sumBits && isBinary carryOut
      && decide (sumBits.length = 4) && decide (carryOut.length = 1)
  | .int n => holdsInt inst n

/-- The answer on the response ports is one that the block can give. -/
def properResponse (inst : Instance) : Option OpOutcome → Bool
  | none => true
  | some .invalidInput => true
  | some (.ok r) => r.proper inst

/-- The operations one after another (R42), stopping where one is refused. -/
def execList : List Instr → State → Host.Outcome State Fault Refusal
  | [], s => .next s
  | i :: is, s =>
    match exec i s with
    | .next t => execList is t
    | .fault r => .fault r
    | .refused r => .refused r

/-- The cycles with which the host presents the operations one after another. -/
def presented (is : List Instr) : List Cycle := is.map (fun i => commandCycle (encode i))

/-- The observable result of a run (R124): the outcomes of the first `k` cycles, in order, one for each
operation; cycles without an operation have none. -/
def outcomes : Nat → State → List OpOutcome
  | 0, _ => []
  | k + 1, s =>
    match step s with
    | .next t => t.response.toList ++ outcomes k t
    | .fault _ => []
    | .refused _ => []

/-- The four-character string of four bits in index order; these are the valid adder operands (R97). -/
def operand (b0 b1 b2 b3 : Bit) : Str := [bit2chr b0, bit2chr b1, bit2chr b2, bit2chr b3]

/-- The sum R88 and R89 give for the value of a numeral in a base, term by term: the digit of character
`j` times `base ^ (len - 1 - j)`. A character's digit is counted from '0'. -/
def weightedSum (base : Nat) (t : Str) : Nat :=
  ((List.range t.length).map
    (fun j => ((t.getD j '0').toNat - '0'.toNat) * base ^ (t.length - 1 - j))).sum

/-- `rev` (R81): the bits in reverse index order. -/
def revBits (v : Vec4) : Vec4 := vecOf (bitAt v 3) (bitAt v 2) (bitAt v 1) (bitAt v 0)

/-- `pad4` (R93): '0' characters in front until there are at least 4 characters. -/
def pad4 (t : Str) : Str := List.replicate (4 - t.length) '0' ++ t

end Sys2Proof.Machine
end

