-- ==== Sys2Proof/Certificates/Slice0/Obligations.lean ====
section
/-! DEFINITION. The statements for the provers. A statement about an operation that the instance can
carry holds on the unbounded (reference) instance for all operands, and on a bounded instance for the
operands of 42_binary_decimal_converter.md R94. -/

open Sys2Proof Sys2Proof.Machine

/-! ### Reset, decoding, the clock cycle -/

/-- 10_state.md R30, R32: every register bit is 0 after reset. The values are the spec's own decision D8
(log 6); the three other fields are the model's own (logs 1 to 3). -/
def Obligations.ResetRegistersAreZero : Prop :=
  State.reset.cla = { A := 0#4, B := 0#4, Cin := false, P := 0#4, G := 0#4, Sum := 0#4, Cout := false }
  ∧ State.reset.response = none ∧ State.reset.inputs = [] ∧ State.reset.inst = .unbounded

/-- Commands of 95_test_vectors.md V10, bus values as printed there, decode to the operations the
vectors name. -/
def Obligations.PrintedCommandsDecode : Prop :=
  decode ⟨0b000, 4, 0x0000000031313030, 4, 0x0000000031303030, false⟩
    = .op (.rcaAdd ['0', '0', '1', '1'] ['0', '0', '0', '1'])
  ∧ decode ⟨0b001, 3, 0x0000000000313031, 4, 0x0000000031303030, true⟩
    = .op (.claSet ['1', '0', '1'] ['0', '0', '0', '1'] true)
  ∧ decode ⟨0b010, 0, 0, 0, 0, false⟩ = .op .claCompute
  ∧ decode ⟨0b011, 0, 0, 0, 0, false⟩ = .op .claGet
  ∧ decode ⟨0b100, 4, 0x0000000030313031, 0, 0, false⟩ = .op (.bin2dec ['1', '0', '1', '0'])
  ∧ decode ⟨0b101, 3, 0x0000000000613231, 0, 0, false⟩ = .op (.dec2bin ['1', '2', 'a'])
  ∧ decode ⟨0b110, 0, 0, 0, 0, false⟩ = .reserved 6
  ∧ decode ⟨0b111, 0, 0, 0, 0, false⟩ = .reserved 7

/-- 30_encoding.md R68: decoding gives one of the six operations when `op <= 5` and "reserved" otherwise,
whatever the other ports carry. -/
def Obligations.OnlyReservedSelectsAreRejected : Prop :=
  ∀ c : Command,
    (c.op.toNat ≤ 5 → ∃ i, decode c = .op i ∧ selectOf i = c.op)
    ∧ (6 ≤ c.op.toNat → decode c = .reserved c.op)

/-- 30_encoding.md R53: character `j` is in bits `8*j+7 .. 8*j` of the bus, and bits at positions `len`
and above are ignored. -/
def Obligations.BusCarriesCharactersLowFirst : Prop :=
  ∀ len bus extra : Nat,
    (strOfBus len bus).length = len
    ∧ (∀ j, j < len → (strOfBus len bus)[j]? = some (Char.ofNat (bus / 256 ^ j % 256)))
    ∧ strOfBus len (bus + 256 ^ len * extra) = strOfBus len bus

/-- 30_encoding.md R68 with R50, R53, R58: every operation the ports can carry comes back from its
command, with every operand. -/
def Obligations.DecodeOfEncode : Prop :=
  ∀ i : Instr, WellFormed i → decode (encode i) = .op i

/-- The other direction: on the fields its format uses, with the unused bus positions 0, a command is
the command of the operation it decodes to. -/
def Obligations.EncodeOfDecode : Prop :=
  ∀ (c : Command) (i : Instr), decode c = .op i →
    WellFormed i
    ∧ (encode i).op = c.op
    ∧ (c.op ≠ 0b010 → c.op ≠ 0b011 → c.s1Chr < 256 ^ c.s1Len →
        (encode i).s1Len = c.s1Len ∧ (encode i).s1Chr = c.s1Chr)
    ∧ (c.op = 0b000 ∨ c.op = 0b001 → c.s2Chr < 256 ^ c.s2Len →
        (encode i).s2Len = c.s2Len ∧ (encode i).s2Chr = c.s2Chr)
    ∧ (c.op = 0b001 → (encode i).cin = c.cin)

/-- 30_encoding.md R51: the command of an operation within a bounded instance's capacity fits that
instance's ports. -/
def Obligations.EncodedCommandFitsPorts : Prop :=
  ∀ (inst : Instance) (i : Instr), within inst i = true → (encode i).onPorts inst = true

/-- 30_encoding.md R60: commands that differ only in fields their format ignores take the machine to
the same answer. -/
def Obligations.IgnoredFieldsChangeNothing : Prop :=
  ∀ (s : State) (op : BitVec 3) (l1 b1 l2 b2 l1' b1' l2' b2' : Nat) (cin cin' : Bit) (rest : List Cycle),
    (op ≠ 0b010 → op ≠ 0b011 → l1' = l1 ∧ b1' = b1) →
    (op = 0b000 ∨ op = 0b001 → l2' = l2 ∧ b2' = b2) →
    (op = 0b001 → cin' = cin) →
    step (s.withInputs (commandCycle ⟨op, l1, b1, l2, b2, cin⟩ :: rest))
      = step (s.withInputs (commandCycle ⟨op, l1', b1', l2', b2', cin'⟩ :: rest))

/-- 00_scope.md R15: a cycle whose command decodes to an operation is that operation's `exec`, on the
state from which the cycle has been taken. -/
def Obligations.StepRunsTheDecodedOperation : Prop :=
  ∀ (s : State) (c : Cycle) (rest : List Cycle) (i : Instr),
    s.inputs = c :: rest → c.rst = false → c.opValid = true → decode c.cmd = .op i →
    step s = exec i { s with inputs := rest }

/-- 30_encoding.md R59, decision D4 (log 4): a command with a reserved select is refused. -/
def Obligations.ReservedSelectIsRefused : Prop :=
  ∀ (s : State) (c : Cycle) (rest : List Cycle),
    s.inputs = c :: rest → c.rst = false → c.opValid = true → c.cmd.op = 6#3 ∨ c.cmd.op = 7#3 →
    step s = .refused (.reservedSelect c.cmd.op)

/-- 70_reset_and_hazards.md R122 (decision D15): with no command, or nothing presented any more (log 1),
registers hold and `res_valid = 0`. -/
def Obligations.CycleWithoutCommandHolds : Prop :=
  (∀ (s : State) (c : Cycle) (rest : List Cycle),
    s.inputs = c :: rest → c.rst = false → c.opValid = false →
    step s = .next { s with inputs := rest, response := none })
  ∧ (∀ s : State, s.inputs = [] → step s = .next { s with response := none })

/-- 70_reset_and_hazards.md R113 (decisions D8, D18): with `rst = 1` all seven registers become 0 and a
command presented in the cycle is not executed. -/
def Obligations.ResetWinsOverACommand : Prop :=
  ∀ (s : State) (c : Cycle) (rest : List Cycle),
    s.inputs = c :: rest → c.rst = true →
    step s = .next
      { cla := { A := 0#4, B := 0#4, Cin := false, P := 0#4, G := 0#4, Sum := 0#4, Cout := false }
        inst := s.inst, inputs := rest, response := none }

/-! ### Validation and the exception -/

/-- 60_exceptions.md R97: the predicate and the 16 strings that satisfy it (clauses 1 to 3). Clause 4
rests on R98 and R100 too: both adders end in the error exactly when it fails, all else as it was; that a
failing `CLA_SET` stores nothing is the spec's own decision D11 (DESIGN CHOICE, log 8). -/
def Obligations.ValidAdderOperands : Prop :=
  (∀ t : Str, valid4 t = true ↔ t.length = 4 ∧ ∀ c ∈ t, c = '0' ∨ c = '1')
  ∧ (∃ l : List Str, l.length = 16 ∧ l.Nodup ∧ ∀ t : Str, valid4 t = true ↔ t ∈ l)
  ∧ (∀ t : Str, valid4 t = true ↔ ∃ b0 b1 b2 b3 : Bit, t = operand b0 b1 b2 b3)
  ∧ (∀ (s : State) (a b : Str) (cin : Bit), holdsStr s.inst a = true → holdsStr s.inst b = true →
      (exec (.rcaAdd a b) s = .next { s with response := some .invalidInput }
        ↔ ¬(valid4 a = true ∧ valid4 b = true))
      ∧ (exec (.claSet a b cin) s = .next { s with response := some .invalidInput }
        ↔ ¬(valid4 a = true ∧ valid4 b = true)))

/-- 60_exceptions.md R99, R100: an operation whose precondition fails ends in `Err(InvalidInput)` and
changes nothing else: no register, no result, nothing saved. For `CLA_SET` this is the spec's own decision
D11 (DESIGN CHOICE, log 8), and for the decimal spellings the source leaves open, decision D13 (DESIGN
CHOICE, log 10). -/
def Obligations.InvalidInputChangesNothing : Prop :=
  ∀ (i : Instr) (s : State), within s.inst i = true → raises i = true →
    exec i s = .next { s with response := some .invalidInput }

/-- 60_exceptions.md R98 (its `DEC2BIN` row rests on decision D13, log 10): an operation that the
instance can carry ends in `Err(InvalidInput)` exactly under its row's condition. -/
def Obligations.InvalidInputExactlyWhen : Prop :=
  (∀ (i : Instr) (s : State), s.inst.legal = true → within s.inst i = true →
    ((∃ t, exec i s = .next t ∧ t.response = some .invalidInput) ↔ raises i = true))
  ∧ (∀ i : Instr, raises i = true ↔ causes i ≠ [])
  ∧ (∀ t : Str, raises (.bin2dec t) = true ↔ t = [] ∨ ∃ c ∈ t, c ≠ '0' ∧ c ≠ '1')
  ∧ (∀ t : Str, raises (.dec2bin t) = true ↔ t = [] ∨ ∃ c ∈ t, c.toNat < 0x30 ∨ 0x39 < c.toNat)
  ∧ raises .claCompute = false ∧ raises .claGet = false

/-- 60_exceptions.md R104: the operation after a failed one behaves as if the failed one had not been
presented. After a failed `CLA_SET` this rests on the spec's own decision D11, that it stores nothing
(DESIGN CHOICE, log 8); which decimal spellings fail is decision D13 (DESIGN CHOICE, log 10). -/
def Obligations.ErrorIsNotLatched : Prop :=
  ∀ (i j : Instr) (s t : State), raises i = true → exec i s = .next t → exec j t = exec j s

/-- 00_scope.md R13: every operation that the instance can carry ends in exactly one outcome; the
reference instance can carry every operation. -/
def Obligations.EveryOperationEndsInAnOutcome : Prop :=
  (∀ (i : Instr) (s : State), s.inst.legal = true → within s.inst i = true →
    ∃ t o, exec i s = .next t ∧ t.response = some o ∧ t.inst = s.inst ∧ t.inputs = s.inputs)
  ∧ (∀ i : Instr, within .unbounded i = true)

/-- 42_binary_decimal_converter.md R94 (decision D6; log 5 for the integer inside `DEC2BIN`): outside a
bounded instance's capacity an operation has no step. -/
def Obligations.OutsideCapacityIsRefused : Prop :=
  ∀ (i : Instr) (s : State), within s.inst i = false → exec i s = .refused .outsideCapacity

/-! ### The ripple-carry adder -/

/-- 40_ripple_carry_adder.md R70, whole: encoding, validation, and the loop's result, with the carry
chain `k2`, `k1`, `k0`, `K` written out; no register is read or written. The wording of the violated
requirement is the host's text (R102). -/
def Obligations.RcaAddMeaning : Prop :=
  (∀ c : Command, c.op = 0b000 →
    decode c = .op (.rcaAdd (strOfBus c.s1Len c.s1Chr) (strOfBus c.s2Len c.s2Chr)))
  ∧ (∀ (s : State) (a b : Str), holdsStr s.inst a = true → holdsStr s.inst b = true →
      ¬(valid4 a = true ∧ valid4 b = true) →
      exec (.rcaAdd a b) s = .next { s with response := some .invalidInput }
      ∧ requirementWording (.rcaAdd a b) = some "must be 4-bit binary strings")
  ∧ (∀ (s : State) (a0 a1 a2 a3 b0 b1 b2 b3 : Bit), s.inst.legal = true →
      let k2 := a3 && b3
      let k1 := (a2 && b2) || ((a2 ^^ b2) && k2)
      let k0 := (a1 && b1) || ((a1 ^^ b1) && k1)
      let K := (a0 && b0) || ((a0 ^^ b0) && k0)
      let sum := operand (a0 ^^ b0 ^^ k0) (a1 ^^ b1 ^^ k1) (a2 ^^ b2 ^^ k2) (a3 ^^ b3)
      exec (.rcaAdd (operand a0 a1 a2 a3) (operand b0 b1 b2 b3)) s
        = .next { s with response := some (.ok (.str (if K then '1' :: sum else sum))) })

/-- 40_ripple_carry_adder.md R72, whole: the result is the exact sum, kept in 4 characters or, from 16
on, in 5 with a leading '1'. -/
def Obligations.RcaAddIsExactSum : Prop :=
  ∀ (s : State) (a b : Str) (va vb : Vec4), s.inst.legal = true → vec4 a = some va → vec4 b = some vb →
    ∃ (K : Bit) (S : Vec4) (r : Str),
      exec (.rcaAdd a b) s = .next { s with response := some (.ok (.str r)) }
      ∧ r = (if K then '1' :: str4 S else str4 S)
      ∧ 16 * K.toNat + S.toNat = va.toNat + vb.toNat
      ∧ r = pad4 (minbin (va.toNat + vb.toNat))
      ∧ (r.length = 5 ↔ 16 ≤ va.toNat + vb.toNat)
      ∧ (r.length = 5 → r.head? = some '1')
      ∧ (¬ r.length = 5 → r.length = 4)
      ∧ (∃ m n, exec (.bin2dec a) s = .next { s with response := some (.ok (.int m)) }
          ∧ exec (.bin2dec b) s = .next { s with response := some (.ok (.int n)) }
          ∧ exec (.bin2dec r) s = .next { s with response := some (.ok (.int (m + n))) })

/-- 40_ripple_carry_adder.md R73: commutation, the neutral operand, and the shape of the result. -/
def Obligations.RcaAddCommutes : Prop :=
  (∀ (s : State) (a b : Str), exec (.rcaAdd a b) s = exec (.rcaAdd b a) s)
  ∧ (∀ (s : State) (a : Str), s.inst.legal = true → valid4 a = true →
      exec (.rcaAdd a ['0', '0', '0', '0']) s = .next { s with response := some (.ok (.str a)) })
  ∧ (∀ (s t : State) (a b r : Str), exec (.rcaAdd a b) s = .next t → t.response = some (.ok (.str r)) →
      (∀ c ∈ r, c = '0' ∨ c = '1')
      ∧ (r.length = 4 ∨ (r.length = 5 ∧ r.head? = some '1' ∧ valid4 r = false)))

/-- 42_binary_decimal_converter.md R93: the RCA result is the padded numeral of the sum of the values
that `BIN2DEC` gives for the operands. -/
def Obligations.RcaAddIsPaddedNumeralOfSum : Prop :=
  ∀ (s : State) (a b : Str), s.inst.legal = true → valid4 a = true → valid4 b = true →
    ∃ m n, exec (.bin2dec a) s = .next { s with response := some (.ok (.int m)) }
      ∧ exec (.bin2dec b) s = .next { s with response := some (.ok (.int n)) }
      ∧ exec (.rcaAdd a b) s = .next { s with response := some (.ok (.str (pad4 (minbin (m + n))))) }

/-! ### The carry-look-ahead adder -/

/-- 41_carry_lookahead_adder.md R76 (that the result registers are not written is decision D9, log 7):
`CLA_SET` stores the operands' bits by index, and nothing else changes. -/
def Obligations.ClaSetStoresOperands : Prop :=
  ∀ (s : State) (a0 a1 a2 a3 b0 b1 b2 b3 cin : Bit), s.inst.legal = true →
    ∃ t, exec (.claSet (operand a0 a1 a2 a3) (operand b0 b1 b2 b3) cin) s = .next t
      ∧ t.cla.A.getMsbD 0 = a0 ∧ t.cla.A.getMsbD 1 = a1 ∧ t.cla.A.getMsbD 2 = a2 ∧ t.cla.A.getMsbD 3 = a3
      ∧ t.cla.B.getMsbD 0 = b0 ∧ t.cla.B.getMsbD 1 = b1 ∧ t.cla.B.getMsbD 2 = b2 ∧ t.cla.B.getMsbD 3 = b3
      ∧ t.cla.Cin = cin
      ∧ t.cla.P = s.cla.P ∧ t.cla.G = s.cla.G ∧ t.cla.Sum = s.cla.Sum ∧ t.cla.Cout = s.cla.Cout
      ∧ t.response = some (.ok .unit) ∧ t.inst = s.inst ∧ t.inputs = s.inputs

/-- 41_carry_lookahead_adder.md R77, whole: encoding, the equations, what is left alone, and that it
always ends in `Ok()`. -/
def Obligations.ClaComputeMeaning : Prop :=
  (∀ c : Command, c.op = 0b010 → decode c = .op .claCompute)
  ∧ (∀ s : State, ∃ t, exec .claCompute s = .next t
      ∧ (∀ i, i < 4 → t.cla.P.getMsbD i = (s.cla.A.getMsbD i ^^ s.cla.B.getMsbD i))
      ∧ (∀ i, i < 4 → t.cla.G.getMsbD i = (s.cla.A.getMsbD i && s.cla.B.getMsbD i))
      ∧ (∀ i, i < 4 → t.cla.Sum.getMsbD i = (t.cla.P.getMsbD i ^^ s.cla.Cin))
      ∧ t.cla.Cout = (t.cla.G.getMsbD 3
          || (t.cla.G.getMsbD 2 && t.cla.P.getMsbD 3)
          || (t.cla.G.getMsbD 1 && t.cla.P.getMsbD 2 && t.cla.P.getMsbD 3)
          || (t.cla.G.getMsbD 0 && t.cla.P.getMsbD 1 && t.cla.P.getMsbD 2 && t.cla.P.getMsbD 3))
      ∧ t.cla.A = s.cla.A ∧ t.cla.B = s.cla.B ∧ t.cla.Cin = s.cla.Cin
      ∧ t.response = some (.ok .unit) ∧ t.inst = s.inst ∧ t.inputs = s.inputs)

/-- 41_carry_lookahead_adder.md R78 (that it writes nothing is decision D9, log 7): `CLA_GET` answers
the four sum characters in index order and the carry-out character. -/
def Obligations.ClaGetReturnsSumAndCout : Prop :=
  ∀ s : State, s.inst.legal = true →
    exec .claGet s = .next { s with response := some (.ok (.pair
      (operand (s.cla.Sum.getMsbD 0) (s.cla.Sum.getMsbD 1) (s.cla.Sum.getMsbD 2) (s.cla.Sum.getMsbD 3))
      [if s.cla.Cout then '1' else '0'])) }

/-- 41_carry_lookahead_adder.md R79: the sum register becomes `A xor B` when `Cin = 0` and its
complement when `Cin = 1`. -/
def Obligations.ClaSumIsXorOrComplement : Prop :=
  ∀ s t : State, exec .claCompute s = .next t →
    t.cla.Sum = (if s.cla.Cin then ~~~(s.cla.A ^^^ s.cla.B) else s.cla.A ^^^ s.cla.B)

/-- 41_carry_lookahead_adder.md R80, R81: `Cout` equals the nested form, does not depend on `Cin`, and is
the carry of the bit-reversed operands. -/
def Obligations.ClaCoutIsReversedCarry : Prop :=
  ∀ s t : State, exec .claCompute s = .next t →
    t.cla.Cout = (t.cla.G.getMsbD 3 || (t.cla.P.getMsbD 3 && (t.cla.G.getMsbD 2
      || (t.cla.P.getMsbD 2 && (t.cla.G.getMsbD 1 || (t.cla.P.getMsbD 1 && t.cla.G.getMsbD 0))))))
    ∧ (t.cla.Cout = true ↔ 16 ≤ (revBits s.cla.A).toNat + (revBits s.cla.B).toNat)
    ∧ (∀ s' t' : State, s'.cla.A = s.cla.A → s'.cla.B = s.cla.B → exec .claCompute s' = .next t' →
        t'.cla.Cout = t.cla.Cout)

/-- 41_carry_lookahead_adder.md R83: read as a 5-bit number, the unit's pair is the arithmetic sum in 162
of the 512 cases, and R81: `Cout` is 1 for 120 of the 256 operand pairs. -/
def Obligations.ClaDivergesFromArithmetic : Prop :=
  ((List.range 512).countP (fun k =>
    let a := BitVec.ofNat 4 (k / 32)
    let b := BitVec.ofNat 4 (k / 2)
    let cin := decide (k % 2 = 1)
    decide (16 * (claCout (claPropagate a b) (claGenerate a b)).toNat + (claSum (claPropagate a b) cin).toNat
      = a.toNat + b.toNat + cin.toNat))) = 162
  ∧ ((List.range 256).countP (fun k =>
    let a := BitVec.ofNat 4 (k / 16)
    let b := BitVec.ofNat 4 k
    claCout (claPropagate a b) (claGenerate a b))) = 120

/-- 41_carry_lookahead_adder.md R82, R66: one full cycle from ANY register contents, in the closed form
of R82, both as three operations and as the pseudo-operation `CLA_ADD`. -/
def Obligations.ClaFullCycle : Prop :=
  ∀ (s : State) (a0 a1 a2 a3 b0 b1 b2 b3 cin : Bit), s.inst.legal = true →
    ∃ t, claAdd (operand a0 a1 a2 a3) (operand b0 b1 b2 b3) cin s = .next t
      ∧ execList [.claSet (operand a0 a1 a2 a3) (operand b0 b1 b2 b3) cin, .claCompute, .claGet] s = .next t
      ∧ t.response = some (.ok (.pair
          (operand (a0 ^^ b0 ^^ cin) (a1 ^^ b1 ^^ cin) (a2 ^^ b2 ^^ cin) (a3 ^^ b3 ^^ cin))
          [bit2chr ((a3 && b3) || ((a2 && b2) && (a3 ^^ b3)) || ((a1 && b1) && (a2 ^^ b2) && (a3 ^^ b3))
            || ((a0 && b0) && (a1 ^^ b1) && (a2 ^^ b2) && (a3 ^^ b3)))]))
      ∧ t.inst = s.inst ∧ t.inputs = s.inputs

/-- 30_encoding.md R66, the failing half: `CLA_ADD` on an invalid operand is the error alone. That the
registers are as before is R34's decision D11 (DESIGN CHOICE, log 8). -/
def Obligations.ClaAddStopsAtTheError : Prop :=
  ∀ (s : State) (a b : Str) (cin : Bit), holdsStr s.inst a = true → holdsStr s.inst b = true →
    ¬(valid4 a = true ∧ valid4 b = true) →
    claAdd a b cin s = .next { s with response := some .invalidInput }

/-- 41_carry_lookahead_adder.md R84 (no state bleed), 70_reset_and_hazards.md R114: a full cycle leaves
the same registers and gives the same pair whatever the registers held before. -/
def Obligations.ClaCycleForgetsThePast : Prop :=
  ∀ (s s' : State) (a b : Str) (cin : Bit), s'.inst = s.inst → s.inst.legal = true →
    valid4 a = true → valid4 b = true →
    ∃ t t', execList [.claSet a b cin, .claCompute, .claGet] s = .next t
      ∧ execList [.claSet a b cin, .claCompute, .claGet] s' = .next t'
      ∧ t.cla = t'.cla ∧ t.response = t'.response

/-- 70_reset_and_hazards.md R119, 60_exceptions.md R108: operations of the other units, operations that
end in the error, and further `CLA_GET`, in any number, anywhere in a CLA cycle, do not disturb it (that
`CLA_GET` writes nothing is decision D9, log 7; that a failed `CLA_SET` does not, decision D11, log 8). -/
def Obligations.InterleavedCycleIsUndisturbed : Prop :=
  ∀ (s : State) (a b : Str) (cin : Bit) (xs ys : List Instr),
    s.inst.legal = true → valid4 a = true → valid4 b = true →
    (∀ i ∈ xs ++ ys, (usesCla i = false ∨ i = .claGet ∨ raises i = true) ∧ within s.inst i = true) →
    ∃ t, execList [.claSet a b cin, .claCompute, .claGet] s = .next t
      ∧ execList (.claSet a b cin :: xs ++ .claCompute :: ys ++ [.claGet]) s = .next t

/-- 20_memory.md R40: repeating `CLA_SET`, `CLA_COMPUTE` or `CLA_GET` is the same as doing it once (for
`CLA_GET` by decision D9, log 7; for a failed `CLA_SET` by decision D11, log 8). -/
def Obligations.ClaOperationsAreIdempotent : Prop :=
  ∀ (i : Instr) (s t : State), usesCla i = true → exec i s = .next t → exec i t = .next t

/-- 70_reset_and_hazards.md R118 (decision D9, log 7): register behaviour out of order. (a), (b) from
reset; (c) `CLA_GET` between `CLA_SET` and `CLA_COMPUTE` gives the earlier pair; (d) `CLA_COMPUTE` after a
failed `CLA_SET` works on the earlier operands (decision D11, log 8); (e) the second of two `CLA_SET` wins.
The reset registers are decision D8 (log 6). -/
def Obligations.ClaOutOfOrder : Prop :=
  (∃ t, exec .claGet State.reset = .next t
      ∧ t.response = some (.ok (.pair ['0', '0', '0', '0'] ['0'])) ∧ t.cla = State.reset.cla)
  ∧ (∃ t, exec .claCompute State.reset = .next t ∧ t.cla = State.reset.cla)
  ∧ (∀ (s t u u' : State) (a b : Str) (cin : Bit), exec (.claSet a b cin) s = .next t →
      exec .claGet s = .next u → exec .claGet t = .next u' → u'.response = u.response)
  ∧ (∀ (s t : State) (a b : Str) (cin : Bit), exec (.claSet a b cin) s = .next t →
      raises (.claSet a b cin) = true → exec .claCompute t = exec .claCompute s)
  ∧ (∀ (s t : State) (a b a' b' : Str) (cin cin' : Bit), exec (.claSet a b cin) s = .next t →
      valid4 a' = true → valid4 b' = true →
      exec (.claSet a' b' cin') t = exec (.claSet a' b' cin') s)

/-! ### The converter -/

/-- 42_binary_decimal_converter.md R88, whole: encoding, precondition, and the value as the sum over the
positions. -/
def Obligations.Bin2DecMeaning : Prop :=
  (∀ c : Command, c.op = 0b100 → decode c = .op (.bin2dec (strOfBus c.s1Len c.s1Chr)))
  ∧ (∀ (s : State) (t : Str), holdsStr s.inst t = true → (t = [] ∨ ∃ c ∈ t, c ≠ '0' ∧ c ≠ '1') →
      exec (.bin2dec t) s = .next { s with response := some .invalidInput })
  ∧ (∀ (s : State) (t : Str), holdsStr s.inst t = true → t ≠ [] → (∀ c ∈ t, c = '0' ∨ c = '1') →
      holdsInt s.inst (weightedSum 2 t) = true →
      exec (.bin2dec t) s = .next { s with response := some (.ok (.int (weightedSum 2 t))) })

/-- 42_binary_decimal_converter.md R89, R90 (accepted strings and "0" are decisions D13, D14, log 10): the
result is the numeral of the decimal value without leading zeros, of the least length. -/
def Obligations.Dec2BinMeaning : Prop :=
  ∀ (s : State) (t : Str), t ≠ [] → (∀ c ∈ t, 0x30 ≤ c.toNat ∧ c.toNat ≤ 0x39) →
    within s.inst (.dec2bin t) = true →
    ∃ r, exec (.dec2bin t) s = .next { s with response := some (.ok (.str r)) }
      ∧ r ≠ [] ∧ (∀ c ∈ r, c = '0' ∨ c = '1')
      ∧ weightedSum 2 r = weightedSum 10 t
      ∧ (weightedSum 10 t = 0 → r = ['0'])
      ∧ (1 ≤ weightedSum 10 t → r.head? = some '1'
          ∧ 2 ^ (r.length - 1) ≤ weightedSum 10 t ∧ weightedSum 10 t < 2 ^ r.length)

/-- 42_binary_decimal_converter.md R90: the numeral with a leading '1' is the only one of its value. -/
def Obligations.MinimalNumeralIsUnique : Prop :=
  ∀ (t : Str) (n : Nat), binValue t = some n → t.head? = some '1' → t = minbin n

/-- 42_binary_decimal_converter.md R92: for every number there is a decimal numeral, and for every
decimal numeral of it `DEC2BIN` followed by `BIN2DEC` of the result recovers the number. For numerals with
leading zeros this rests on the spec's own decision D13, for the value 0 on D14 (DESIGN CHOICE, log 10). -/
def Obligations.ConversionRoundTrip : Prop :=
  (∀ n : Nat, ∃ t : Str, decValue t = some n)
  ∧ (∀ (s : State) (t : Str) (n : Nat), decValue t = some n → within s.inst (.dec2bin t) = true →
      ∃ u, exec (.dec2bin t) s = .next u ∧ u.response = some (.ok (.str (minbin n)))
        ∧ exec (.bin2dec (minbin n)) u = .next { u with response := some (.ok (.int n)) })

/-- 42_binary_decimal_converter.md R92, the other direction: converting the value of a base-2 numeral
back gives the numeral without its leading zeros, or "0" (leading zeros of the decimal numeral: decision
D13; the value 0: decision D14; log 10). -/
def Obligations.LeadingZerosAreLost : Prop :=
  ∀ (s : State) (b t : Str) (n : Nat), binValue b = some n → decValue t = some n →
    within s.inst (.dec2bin t) = true →
    exec (.dec2bin t) s = .next { s with response := some (.ok (.str
      (if n = 0 then ['0'] else b.dropWhile (fun c => c == '0')))) }

/-! ### What operations leave alone, and what every step keeps -/

/-- 10_state.md R19, 70_reset_and_hazards.md R119: `RCA_ADD`, `BIN2DEC` and `DEC2BIN` change nothing but
the answer, and the answer depends on the operands alone. -/
def Obligations.PureOperationsFrame : Prop :=
  ∀ (i : Instr), usesCla i = false → ∀ s t : State, exec i s = .next t →
    t.cla = s.cla ∧ t.inst = s.inst ∧ t.inputs = s.inputs
    ∧ ∀ s' : State, s'.inst = s.inst → exec i s' = .next { s' with response := t.response }

/-- 10_state.md R19 (for `CLA_SET` leaving the results, and `CLA_GET` leaving all, decision D9, log 7):
the registers each CLA operation leaves unchanged. -/
def Obligations.ClaOperationsFrame : Prop :=
  (∀ (s t : State) (a b : Str) (cin : Bit), exec (.claSet a b cin) s = .next t →
    t.cla.P = s.cla.P ∧ t.cla.G = s.cla.G ∧ t.cla.Sum = s.cla.Sum ∧ t.cla.Cout = s.cla.Cout
    ∧ t.inst = s.inst ∧ t.inputs = s.inputs)
  ∧ (∀ s t : State, exec .claCompute s = .next t →
    t.cla.A = s.cla.A ∧ t.cla.B = s.cla.B ∧ t.cla.Cin = s.cla.Cin
    ∧ t.inst = s.inst ∧ t.inputs = s.inputs)
  ∧ (∀ s t : State, exec .claGet s = .next t →
    t.cla = s.cla ∧ t.inst = s.inst ∧ t.inputs = s.inputs)

/-- 10_state.md R33: `CLA_COMPUTE` establishes the equations, and every operation but a successful
`CLA_SET` keeps them. For `CLA_GET` this rests on decision D9 (log 7), for a failed `CLA_SET` on D11
(log 8), for the reset state on D8 (log 6), each the spec's own (DESIGN CHOICE). -/
def Obligations.ResultsStayCoherent : Prop :=
  (∀ s t : State, exec .claCompute s = .next t → t.cla.Coherent)
  ∧ (∀ (i : Instr) (s t : State), s.cla.Coherent →
      (∀ a b cin, i = .claSet a b cin → raises i = true) → exec i s = .next t → t.cla.Coherent)
  ∧ State.reset.cla.Coherent

/-- Every step, from any state that has it, keeps: the result registers are those of some operands
and some carry-in (10_state.md R33; 41_carry_lookahead_adder.md R77). For a cycle with `rst` this rests on
the reset values (decision D8, log 6), for `CLA_SET` and `CLA_GET` on their leaving the results (decision
D9, log 7). -/
def Obligations.StepKeepsResultsOfSomeOperands : Prop :=
  ∀ s t : State, s.cla.ResultsOfSomeOperands → step s = .next t → t.cla.ResultsOfSomeOperands

/-- The invariant of `StepKeepsResultsOfSomeOperands` holds after reset (the reset values are decision
D8, log 6). -/
def Obligations.ResetHasResultsOfSomeOperands : Prop :=
  State.reset.cla.ResultsOfSomeOperands

/-- 10_state.md R29, 20_memory.md R42: a step never changes the parameters of the instance, takes one
cycle from the host and does not look at what the ports answered before. -/
def Obligations.StepTakesOneCycle : Prop :=
  (∀ s t : State, step s = .next t → t.inst = s.inst ∧ t.inputs = s.inputs.tail)
  ∧ (∀ (s : State) (o : Option OpOutcome), step (s.withResponse o) = step s)

/-- 00_scope.md R8, 10_state.md R29: a step keeps a legal instance legal, and the instance after reset is
legal (it is the unbounded one, log 3). -/
def Obligations.InstanceStaysLegal : Prop :=
  (∀ s t : State, s.inst.legal = true → step s = .next t → t.inst.legal = true)
  ∧ State.reset.inst.legal = true

/-- 30_encoding.md R62: whatever a step answers has the characters and lengths of R62 and fits the
instance. -/
def Obligations.AnswersAreProper : Prop :=
  ∀ s t : State, step s = .next t → properResponse t.inst t.response = true

/-- 30_encoding.md R54, 60_exceptions.md R103 (decisions D2, D12): `res_valid` and `err` of a step, and
that every response port value fits the ports of a bounded instance. The bound on `r_chr` is its width's
and needs no value of the bits beyond the string, which the model sets to 0 (DESIGN CHOICE, log 19). -/
def Obligations.ResponsePortsFit : Prop :=
  (∀ o, (respPorts o).resValid = o.isSome)
  ∧ (∀ r, (respPorts (some (.ok r))).err = some false)
  ∧ (respPorts (some .invalidInput)).err = some true
  ∧ (∀ (s t : State) (strMax vw : Nat), s.inst = .bounded strMax vw → step s = .next t →
      (∀ n, (respPorts t.response).rLen = some n → n < 2 ^ Config.lenWidth strMax)
      ∧ (∀ n, (respPorts t.response).rChr = some n → n < 2 ^ (8 * strMax))
      ∧ (∀ n, (respPorts t.response).rCout = some n → n = 0x30 ∨ n = 0x31)
      ∧ (∀ n, (respPorts t.response).rVal = some n → n < 2 ^ vw))

/-- The machine is its operations in the order presented (20_memory.md R42, 70_reset_and_hazards.md
R124): as many steps as there are operations, each presented by its command, give what the operations
give one after another. That the commands are a list of cycles in State is the model's choice (DESIGN
CHOICE, log 1). -/
def Obligations.RunIsTheOperationsInOrder : Prop :=
  ∀ (is : List Instr) (s : State) (rest : List Cycle), (∀ i ∈ is, WellFormed i) →
    Host.Core.run Sys2Proof.core is.length (s.withInputs (presented is ++ rest))
      = execList is (s.withInputs rest)

/-- 70_reset_and_hazards.md R121, R124: exactly one outcome for each operation presented
(as a list of cycles in State, the model's choice, log 1). -/
def Obligations.OneOutcomePerOperation : Prop :=
  ∀ (is : List Instr) (s : State), s.inst.legal = true →
    (∀ i ∈ is, WellFormed i ∧ within s.inst i = true) →
    (outcomes is.length (s.withInputs (presented is))).length = is.length
end

