-- ==== Sys2Proof/Laws/Operands.lean ====
section
/-! SUPPORT. What the operand forms are: bits and vectors, valid adder operands, numerals, capacity. -/

namespace Sys2Proof.Machine

/-! ### Bits, characters and vectors (00_scope.md R10, R11) -/

@[simp] theorem chr2bit_bit2chr (b : Bit) : chr2bit (bit2chr b) = some b := by cases b <;> rfl

theorem chr2bit_eq_some {c : Chr} {b : Bit} : chr2bit c = some b ↔ c = bit2chr b := by
  constructor
  · intro h
    unfold chr2bit at h
    split at h
    · cases h; simpa [bit2chr]
    · split at h
      · cases h; simpa [bit2chr]
      · cases h
  · rintro rfl; exact chr2bit_bit2chr b

theorem chr2bit_isSome {c : Chr} : (chr2bit c).isSome = true ↔ c = '0' ∨ c = '1' := by
  unfold chr2bit
  split
  · simp [*]
  · split <;> simp [*]

@[simp] theorem bitAt_vecOf (b0 b1 b2 b3 : Bit) :
    bitAt (vecOf b0 b1 b2 b3) 0 = b0 ∧ bitAt (vecOf b0 b1 b2 b3) 1 = b1
    ∧ bitAt (vecOf b0 b1 b2 b3) 2 = b2 ∧ bitAt (vecOf b0 b1 b2 b3) 3 = b3 := by
  revert b0 b1 b2 b3; decide

/-- A vector is its four bits in index order. -/
@[simp] theorem vecOf_bitAt (v : Vec4) : vecOf (bitAt v 0) (bitAt v 1) (bitAt v 2) (bitAt v 3) = v := by
  revert v; decide

/-- A claim about every vector is one about every four bits. -/
theorem forall_vec4 {p : Vec4 → Prop} (h : ∀ b0 b1 b2 b3, p (vecOf b0 b1 b2 b3)) (v : Vec4) : p v := by
  rw [← vecOf_bitAt v]; exact h _ _ _ _

theorem str4_eq_operand (v : Vec4) : str4 v = operand (bitAt v 0) (bitAt v 1) (bitAt v 2) (bitAt v 3) := rfl

@[simp] theorem str4_vecOf (b0 b1 b2 b3 : Bit) : str4 (vecOf b0 b1 b2 b3) = operand b0 b1 b2 b3 := by
  simp [str4_eq_operand]

@[simp] theorem vec4_operand (b0 b1 b2 b3 : Bit) : vec4 (operand b0 b1 b2 b3) = some (vecOf b0 b1 b2 b3) := by
  simp [vec4, operand]

/-- R11: `vec4` and `str4` are inverse on valid operands. -/
theorem vec4_eq_some {t : Str} {v : Vec4} : vec4 t = some v ↔ t = str4 v := by
  constructor
  · intro h
    unfold vec4 at h
    split at h
    · split at h
      · rename_i h0 h1 h2 h3
        cases h
        rw [chr2bit_eq_some.1 h0, chr2bit_eq_some.1 h1, chr2bit_eq_some.1 h2, chr2bit_eq_some.1 h3]
        simp [operand]
      · cases h
    · cases h
  · rintro rfl; rw [str4_eq_operand, vec4_operand, vecOf_bitAt]

/-- R97: a string is valid exactly when it is the string of a vector. -/
theorem valid4_iff {t : Str} : valid4 t = true ↔ ∃ v, t = str4 v := by
  constructor
  · intro h
    simp only [valid4, Bool.and_eq_true, decide_eq_true_eq] at h
    obtain ⟨c0, c1, c2, c3, rfl⟩ := List.length_eq_four.1 h.1
    simp only [List.all_cons, List.all_nil, Bool.and_eq_true, Option.isSome_iff_exists, chr2bit_eq_some] at h
    obtain ⟨-, ⟨b0, rfl⟩, ⟨b1, rfl⟩, ⟨b2, rfl⟩, ⟨b3, rfl⟩, -⟩ := h
    exact ⟨vecOf b0 b1 b2 b3, by simp [operand]⟩
  · rintro ⟨v, rfl⟩; simp [valid4, str4]

theorem valid4_eq_isSome (t : Str) : valid4 t = (vec4 t).isSome := by
  rw [Bool.eq_iff_iff, valid4_iff, Option.isSome_iff_exists]
  simp only [vec4_eq_some]

theorem vec4_of_valid4 {t : Str} (h : valid4 t = true) : ∃ v, vec4 t = some v := by
  rwa [valid4_eq_isSome, Option.isSome_iff_exists] at h

theorem vec4_eq_none {t : Str} : vec4 t = none ↔ valid4 t = false := by
  rw [valid4_eq_isSome]; cases vec4 t <;> simp

/-! ### Digits and numerals (42_binary_decimal_converter.md R88 to R91) -/

/-- The digit characters' codes are consecutive, from that of '0' (30_encoding.md R52). -/
theorem digitChrs_codes : digitChrs.map Char.toNat = List.range' 48 10 := by decide

theorem digit_eq {c : Chr} {d : Nat} (h : digit c = some d) : d < 10 ∧ c.toNat = 48 + d := by
  obtain ⟨hd, rfl, -⟩ := List.idxOf?_eq_some_iff.1 h
  refine ⟨hd, ?_⟩
  rw [← List.getElem_map Char.toNat (h := by simpa using hd)]
  simp [digitChrs_codes]

theorem digit_isSome {c : Chr} : (digit c).isSome = true ↔ 0x30 ≤ c.toNat ∧ c.toNat ≤ 0x39 := by
  have mem : c ∈ digitChrs ↔ c.toNat ∈ digitChrs.map Char.toNat :=
    ⟨fun h => List.mem_map_of_mem h, fun h => by
      obtain ⟨e, he, hec⟩ := List.mem_map.1 h
      rwa [← Char.toNat_inj.1 hec]⟩
  rw [digit, List.isSome_idxOf?, mem, digitChrs_codes, List.mem_range'_1]
  omega

theorem bitDigit_eq {c : Chr} {d : Nat} (h : bitDigit c = some d) : d < 2 ∧ c.toNat = 48 + d := by
  simp only [bitDigit, Option.map_eq_some_iff, chr2bit_eq_some] at h
  obtain ⟨b, rfl, rfl⟩ := h
  cases b <;> decide

@[simp] theorem bitDigit_bit2chr (b : Bit) : bitDigit (bit2chr b) = some b.toNat := by simp [bitDigit]

theorem bitDigit_isSome (c : Chr) : (bitDigit c).isSome = (chr2bit c).isSome := by simp [bitDigit]

theorem digitList_isSome (f : Chr → Option Nat) (t : Str) :
    (digitList f t).isSome = t.all (fun c => (f c).isSome) := by
  induction t with
  | nil => rfl
  | cons c t ih =>
    simp only [digitList, List.all_cons, ← ih]
    cases f c <;> cases digitList f t <;> rfl

theorem digitsOf_isSome (f : Chr → Option Nat) (t : Str) :
    (digitsOf f t).isSome = (!t.isEmpty && t.all (fun c => (f c).isSome)) := by
  unfold digitsOf
  cases h : t.isEmpty <;> simp [digitList_isSome]

/-- `BIN2DEC`'s precondition holds exactly when the numeral has a value (R88). -/
theorem binValue_isSome (t : Str) : (binValue t).isSome = binaryNumeral t := by
  simp [binValue, digitsOf_isSome, binaryNumeral, bitDigit_isSome]

/-- `decimal_numeral` holds exactly when the numeral has a value (R91). -/
theorem decValue_isSome (t : Str) : (decValue t).isSome = decimalNumeral t := by
  simp [decValue, digitsOf_isSome, decimalNumeral]

theorem positional_append (base : Nat) (ds es : List Nat) :
    positional base (ds ++ es) = positional base ds * base ^ es.length + positional base es := by
  induction es using List.reverseRecOn with
  | nil => simp [positional]
  | append_singleton es e ih =>
    simp only [positional, List.foldl_append, List.foldl_cons, List.foldl_nil] at ih ⊢
    rw [ih]
    simp [pow_succ]
    ring

/-! ### Capacity (R94) -/

@[simp] theorem holdsStr_unbounded (t : Str) : holdsStr .unbounded t = true := rfl
@[simp] theorem holdsInt_unbounded (n : Nat) : holdsInt .unbounded n = true := rfl

/-- A legal instance holds every string of at most 5 characters (R8). -/
theorem holdsStr_of_legal {inst : Instance} (h : inst.legal = true) {t : Str} (ht : t.length ≤ 5) :
    holdsStr inst t = true := by
  cases inst with
  | unbounded => rfl
  | bounded m v => simp [Instance.legal, holdsStr] at h ⊢; omega

/-- A legal instance holds every integer up to 31 (R8). -/
theorem holdsInt_of_legal {inst : Instance} (h : inst.legal = true) {n : Nat} (hn : n < 32) :
    holdsInt inst n = true := by
  cases inst with
  | unbounded => rfl
  | bounded m v =>
    simp [Instance.legal, holdsInt] at h ⊢
    exact lt_of_lt_of_le hn (Nat.pow_le_pow_right (n := 2) (by norm_num) h.2)

end Sys2Proof.Machine
end

