-- ==== Sys2Proof/Laws/Numerals.lean ====
section
/-! SUPPORT. Positional values: bounds, uniqueness, the numeral `minbin`, and the sum over positions
(42_binary_decimal_converter.md R88 to R90). -/

namespace Sys2Proof.Machine

@[simp] theorem positional_nil (base : Nat) : positional base [] = 0 := rfl

theorem positional_cons (base d : Nat) (ds : List Nat) :
    positional base (d :: ds) = d * base ^ ds.length + positional base ds := by
  have := positional_append base [d] ds
  simpa [positional] using this

theorem positional_lt {base : Nat} {ds : List Nat} (h : ∀ d ∈ ds, d < base) :
    positional base ds < base ^ ds.length := by
  induction ds with
  | nil => simp
  | cons d ds ih =>
    rw [positional_cons, List.length_cons, pow_succ]
    have hd : d + 1 ≤ base := h d (by simp)
    have hr := ih (fun e he => h e (by simp [he]))
    calc d * base ^ ds.length + positional base ds < (d + 1) * base ^ ds.length := by
          rw [Nat.add_mul]; omega
      _ ≤ base ^ ds.length * base := by rw [Nat.mul_comm]; exact Nat.mul_le_mul_left _ hd

/-- Digit lists of one length and one value are equal. -/
theorem positional_inj {base : Nat} {ds es : List Nat} (hl : ds.length = es.length)
    (hd : ∀ d ∈ ds, d < base) (he : ∀ d ∈ es, d < base) (hv : positional base ds = positional base es) :
    ds = es := by
  induction ds generalizing es with
  | nil => simpa [eq_comm] using hl
  | cons d ds ih =>
    cases es with
    | nil => simp at hl
    | cons e es =>
      simp only [List.length_cons, Nat.add_right_cancel_iff] at hl
      rw [positional_cons, positional_cons, hl] at hv
      have h1 := positional_lt (fun x hx => hd x (List.mem_cons_of_mem _ hx))
      have h2 := positional_lt (fun x hx => he x (List.mem_cons_of_mem _ hx))
      rw [hl] at h1
      have hde : d = e := by
        have hdiv := congrArg (· / base ^ es.length) hv
        simp only [Nat.mul_comm _ (base ^ es.length)] at hdiv
        have hp : 0 < base ^ es.length := by omega
        rwa [Nat.mul_add_div hp, Nat.mul_add_div hp, Nat.div_eq_of_lt h1, Nat.div_eq_of_lt h2] at hdiv
      subst hde
      rw [ih hl (fun x hx => hd x (List.mem_cons_of_mem _ hx))
        (fun x hx => he x (List.mem_cons_of_mem _ hx)) (by omega)]

theorem digitList_length {f : Chr → Option Nat} {t : Str} {ds : List Nat} (h : digitList f t = some ds) :
    ds.length = t.length := by
  induction t generalizing ds with
  | nil => cases h; rfl
  | cons c t ih =>
    simp only [digitList] at h
    split at h
    · cases h; simp [ih ‹_›]
    · cases h

theorem digitList_lt {f : Chr → Option Nat} {base : Nat} (hf : ∀ c d, f c = some d → d < base) {t : Str}
    {ds : List Nat} (h : digitList f t = some ds) : ∀ d ∈ ds, d < base := by
  induction t generalizing ds with
  | nil => cases h; simp
  | cons c t ih =>
    simp only [digitList] at h
    split at h
    · cases h
      intro d hd
      rcases List.mem_cons.1 hd with rfl | hd
      · exact hf _ _ ‹_›
      · exact ih ‹_› d hd
    · cases h

theorem digitList_append (f : Chr → Option Nat) (t u : Str) {ds es : List Nat}
    (ht : digitList f t = some ds) (hu : digitList f u = some es) :
    digitList f (t ++ u) = some (ds ++ es) := by
  induction t generalizing ds with
  | nil => cases ht; simpa
  | cons c t ih =>
    simp only [digitList, List.cons_append] at ht ⊢
    split at ht
    · cases ht; simp [*, ih ‹_›]
    · cases ht

theorem digitList_inj {f : Chr → Option Nat} (hf : ∀ c c' d, f c = some d → f c' = some d → c = c')
    {t u : Str} {ds : List Nat} (ht : digitList f t = some ds) (hu : digitList f u = some ds) : t = u := by
  induction t generalizing u ds with
  | nil =>
    cases ht
    have := digitList_length hu
    simpa [eq_comm] using this
  | cons c t ih =>
    cases u with
    | nil => cases hu; have := digitList_length ht; simp at this
    | cons c' u =>
      simp only [digitList] at ht hu
      split at ht <;> [skip; cases ht]
      split at hu <;> [skip; cases hu]
      cases ht
      simp only [Option.some.injEq, List.cons.injEq] at hu
      obtain ⟨rfl, rfl⟩ := hu
      rw [hf _ _ _ ‹f c = _› ‹f c' = _›, ih ‹digitList f t = _› ‹digitList f u = _›]

theorem binValue_eq_some {t : Str} {n : Nat} :
    binValue t = some n ↔ t ≠ [] ∧ ∃ ds, digitList bitDigit t = some ds ∧ positional 2 ds = n := by
  cases t <;> simp [binValue, digitsOf]

theorem decValue_eq_some {t : Str} {n : Nat} :
    decValue t = some n ↔ t ≠ [] ∧ ∃ ds, digitList digit t = some ds ∧ positional 10 ds = n := by
  cases t <;> simp [decValue, digitsOf]

/-- The value of a numeral as the sum over its positions (R88, R89). -/
theorem weightedSum_eq {base : Nat} {f : Chr → Option Nat} (hf : ∀ c d, f c = some d → c.toNat = 48 + d)
    {t : Str} {ds : List Nat} (h : digitList f t = some ds) : weightedSum base t = positional base ds := by
  induction t generalizing ds with
  | nil => cases h; rfl
  | cons c t ih =>
    simp only [digitList] at h
    split at h
    · rename_i d ds' hc hds
      cases h
      rw [positional_cons, ← ih hds, digitList_length hds]
      have hd : c.toNat - '0'.toNat = d := by rw [hf c d hc]; simp
      simp only [weightedSum, List.length_cons, List.range_succ_eq_map, List.map_cons, List.map_map,
        List.sum_cons, List.getD_cons_zero, hd]
      simp only [Function.comp_def, List.getD_cons_succ, Nat.add_sub_cancel, Nat.sub_zero]
      congr 3
      funext j
      congr 2
      omega
    · cases h

/-! ### `minbin` (R90) -/

theorem minbinLoop_append (k n : Nat) (r : Str) : minbinLoop k n r = minbinLoop k n [] ++ r := by
  induction k generalizing n r with
  | zero => rfl
  | succ k ih =>
    simp only [minbinLoop]
    split
    · rfl
    · rw [ih, ih (n / 2) [_]]; simp

theorem minbinLoop_spec (k n : Nat) (h : n < 2 ^ k) :
    ∃ ds, digitList bitDigit (minbinLoop k n []) = some ds ∧ positional 2 ds = n := by
  induction k generalizing n with
  | zero => exact ⟨[], rfl, by simp at h; simp [h]⟩
  | succ k ih =>
    simp only [minbinLoop]
    split
    · exact ⟨[], rfl, by simp [*]⟩
    · obtain ⟨ds, hds, hv⟩ := ih (n / 2) (by rw [pow_succ] at h; omega)
      rw [minbinLoop_append]
      refine ⟨ds ++ [(decide (n % 2 = 1)).toNat], digitList_append _ _ _ hds ?_, ?_⟩
      · simp [digitList]
      · rw [positional_append, hv]
        rcases Nat.mod_two_eq_zero_or_one n with h2 | h2 <;> simp [h2, positional] <;> omega

theorem minbinLoop_head (k n : Nat) (h : n < 2 ^ k) (hn : 1 ≤ n) :
    (minbinLoop k n []).head? = some '1' := by
  induction k generalizing n with
  | zero => simp at h; omega
  | succ k ih =>
    simp only [minbinLoop, show ¬ n = 0 by omega, if_false]
    rw [minbinLoop_append]
    rcases Nat.lt_or_ge n 2 with h2 | h2
    · obtain rfl : n = 1 := by omega
      cases k <;> simp [minbinLoop, bit2chr]
    · rw [List.head?_append, ih (n / 2) (by rw [pow_succ] at h; omega) (by omega)]; rfl

theorem minbin_head {n : Nat} (hn : 1 ≤ n) : (minbin n).head? = some '1' := by
  rw [minbin, if_neg (by omega)]
  exact minbinLoop_head _ _ Nat.lt_log2_self hn

@[simp] theorem minbin_zero : minbin 0 = ['0'] := rfl

theorem minbin_ne_nil (n : Nat) : minbin n ≠ [] := by
  rcases Nat.eq_zero_or_pos n with rfl | hn
  · simp
  · intro h; have := minbin_head hn; simp [h] at this

/-- The numeral of `n` has the value `n` (R92). -/
theorem binValue_minbin (n : Nat) : binValue (minbin n) = some n := by
  refine binValue_eq_some.2 ⟨minbin_ne_nil n, ?_⟩
  unfold minbin
  split
  · exact ⟨[0], rfl, by simp [*, positional]⟩
  · exact minbinLoop_spec _ _ Nat.lt_log2_self

theorem bitDigit_inj (c c' : Chr) (d : Nat) (h : bitDigit c = some d) (h' : bitDigit c' = some d) : c = c' := by
  have h1 := (bitDigit_eq h).2
  have h2 := (bitDigit_eq h').2
  exact Char.toNat_inj.1 (h1.trans h2.symm)

/-- The value of a numeral with a leading '1' fixes its length (R90). -/
theorem binValue_bounds {t : Str} {n : Nat} (hv : binValue t = some n) (hh : t.head? = some '1') :
    2 ^ (t.length - 1) ≤ n ∧ n < 2 ^ t.length := by
  obtain ⟨-, ds, hds, rfl⟩ := binValue_eq_some.1 hv
  have hlt := positional_lt (digitList_lt (base := 2) (fun _ _ h => (bitDigit_eq h).1) hds)
  rw [digitList_length hds] at hlt
  refine ⟨?_, hlt⟩
  cases t with
  | nil => simp at hh
  | cons c t =>
    simp only [List.head?_cons, Option.some.injEq] at hh
    subst hh
    simp only [digitList] at hds
    split at hds
    · rename_i d ds' hd hds'
      cases hds
      have : d = 1 := by have := (bitDigit_eq hd).2; simp at this; omega
      subst this
      rw [positional_cons, digitList_length hds']
      simp
    · cases hds

/-- R90: the numeral with a leading '1' is unique. -/
theorem binValue_unique {t u : Str} {n : Nat} (ht : binValue t = some n) (hu : binValue u = some n)
    (ht1 : t.head? = some '1') (hu1 : u.head? = some '1') : t = u := by
  have hlen : t.length = u.length := by
    have h1 := binValue_bounds ht ht1
    have h2 := binValue_bounds hu hu1
    have h3 := (Nat.pow_lt_pow_iff_right (a := 2) (by norm_num)).1 (lt_of_le_of_lt h1.1 h2.2)
    have h4 := (Nat.pow_lt_pow_iff_right (a := 2) (by norm_num)).1 (lt_of_le_of_lt h2.1 h1.2)
    have : t ≠ [] := by rintro rfl; simp at ht1
    have := List.length_pos_iff.2 this
    omega
  obtain ⟨-, ds, hds, rfl⟩ := binValue_eq_some.1 ht
  obtain ⟨-, es, hes, hv⟩ := binValue_eq_some.1 hu
  have hlt := fun {t : Str} {ds : List Nat} (h : digitList bitDigit t = some ds) =>
    digitList_lt (base := 2) (fun _ _ h => (bitDigit_eq h).1) h
  have : ds = es := positional_inj
    (by rw [digitList_length hds, digitList_length hes, hlen]) (hlt hds) (hlt hes) hv.symm
  exact digitList_inj bitDigit_inj hds (this ▸ hes)

end Sys2Proof.Machine
end

