-- ==== Sys2Proof/Laws/Adders.lean ====
section
/-! SUPPORT. The adders' computations in closed form (40_ripple_carry_adder.md R71, R72;
41_carry_lookahead_adder.md R77, R79, R81). -/

namespace Sys2Proof.Machine

/-- R71's unrolled loop as an exact sum: the final carry and the sum vector. -/
theorem rcaResult_spec (a b : Vec4) :
    ∃ (K : Bit) (S : Vec4), rcaResult a b = (if K then '1' :: str4 S else str4 S)
      ∧ 16 * K.toNat + S.toNat = a.toNat + b.toNat := by
  refine ⟨(rcaLoop a b).1, vecOf ((rcaLoop a b).2.getD 0 false) ((rcaLoop a b).2.getD 1 false)
    ((rcaLoop a b).2.getD 2 false) ((rcaLoop a b).2.getD 3 false), ?_, ?_⟩
  · simp [rcaResult, rcaLoop, rcaRound, operand]
  · revert a b; decide

theorem rcaResult_comm (a b : Vec4) : rcaResult a b = rcaResult b a := by
  simp only [rcaResult, rcaLoop, rcaRound, List.foldl_cons, List.foldl_nil, rcaCarryBit, rcaSumBit,
    Bool.and_comm, Bool.xor_comm]

theorem rcaResult_length_le (a b : Vec4) : (rcaResult a b).length ≤ 5 := by
  obtain ⟨K, S, h, -⟩ := rcaResult_spec a b
  cases K <;> simp [h, str4]

theorem str4_length (v : Vec4) : (str4 v).length = 4 := rfl

/-- A legal instance holds every adder operand (R8). -/
theorem holdsStr_str4 {inst : Instance} (h : inst.legal = true) (v : Vec4) :
    holdsStr inst (str4 v) = true := holdsStr_of_legal h (by rw [str4_length]; omega)

theorem isBinary_str4 (v : Vec4) : isBinary (str4 v) = true := by simp [isBinary, str4]

theorem isBinary_rcaResult (a b : Vec4) : isBinary (rcaResult a b) = true := by
  obtain ⟨K, S, h, -⟩ := rcaResult_spec a b
  have h1 : chr2bit '1' = some true := rfl
  rw [h]
  cases K <;> simp [isBinary, str4, h1]

/-- The value of a valid adder operand read as a numeral (R72). -/
theorem binValue_str4 (v : Vec4) : binValue (str4 v) = some v.toNat := by
  revert v; decide

theorem claPropagate_eq (a b : Vec4) : claPropagate a b = a ^^^ b := by revert a b; decide

theorem claGenerate_eq (a b : Vec4) : claGenerate a b = a &&& b := by revert a b; decide

/-- R79: the sum stage is the propagate vector or its complement. -/
theorem claSum_eq (p : Vec4) (cin : Bit) : claSum p cin = if cin then ~~~p else p := by
  revert p cin; decide

end Sys2Proof.Machine
end

