-- ==== Sys2Proof/Laws/Decode.lean ====
section
/-! SUPPORT. Ports and strings: what a bus carries and that an encoded string comes back
(30_encoding.md R52, R53). -/

namespace Sys2Proof

@[simp] theorem strOfBus_length (len bus : Nat) : (strOfBus len bus).length = len := by
  induction len generalizing bus with
  | zero => rfl
  | succ len ih => simp [strOfBus, ih]

theorem chrOfCode_codeOfChr {c : Chr} (h : c.hasCode = true) : chrOfCode (codeOfChr c) = c := by
  simp only [Chr.hasCode, decide_eq_true_eq] at h
  simp [chrOfCode, codeOfChr, Nat.mod_eq_of_lt h, Char.ofNat_toNat]

theorem codeOfChr_lt (c : Chr) : codeOfChr c < 256 := Nat.mod_lt _ (by norm_num)

/-- The first character of a bus is its low byte alone. -/
theorem chrOfCode_add_mul (x k : Nat) : chrOfCode (x + 256 * k) = chrOfCode x := by
  simp [chrOfCode]

theorem chrOfCode_toNat (x : Nat) : (chrOfCode x).toNat = x % 256 := by
  unfold chrOfCode
  have h : x % 256 < 256 := Nat.mod_lt _ (by norm_num)
  rw [Char.ofNat, dif_pos (Or.inl (by omega))]
  rfl

theorem chrOfCode_hasCode (x : Nat) : (chrOfCode x).hasCode = true := by
  simp only [Chr.hasCode, chrOfCode_toNat, decide_eq_true_eq]
  exact Nat.mod_lt _ (by norm_num)

/-- R53: a string put on a port is the string the port carries. -/
theorem strOfBus_busOfStr {t : Str} (h : Str.hasCodes t = true) : strOfBus t.length (busOfStr t) = t := by
  induction t with
  | nil => rfl
  | cons c t ih =>
    simp only [Str.hasCodes, List.all_cons, Bool.and_eq_true] at h
    have hdiv : (codeOfChr c + 256 * busOfStr t) / 256 = busOfStr t := by
      have := codeOfChr_lt c; omega
    simp only [List.length_cons, busOfStr, strOfBus, hdiv, chrOfCode_add_mul,
      chrOfCode_codeOfChr h.1]
    rw [ih h.2]

theorem strOfBus_hasCodes (len bus : Nat) : Str.hasCodes (strOfBus len bus) = true := by
  induction len generalizing bus with
  | zero => rfl
  | succ len ih =>
    simp only [strOfBus, Str.hasCodes, List.all_cons, chrOfCode_hasCode, Bool.true_and]
    exact ih _

/-- R53: a bus with zeros above its string is the bus of that string. -/
theorem busOfStr_strOfBus (len bus : Nat) (h : bus < 256 ^ len) : busOfStr (strOfBus len bus) = bus := by
  induction len generalizing bus with
  | zero => simp at h; simp [strOfBus, busOfStr, h]
  | succ len ih =>
    rw [pow_succ] at h
    simp only [strOfBus, busOfStr, ih (bus / 256) (by omega)]
    have : codeOfChr (chrOfCode bus) = bus % 256 := by
      simp only [codeOfChr, chrOfCode_toNat, Nat.mod_mod]
    omega

/-- A bus fits the bits of its characters. -/
theorem busOfStr_lt (t : Str) : busOfStr t < 256 ^ t.length := by
  induction t with
  | nil => simp [busOfStr]
  | cons c t ih =>
    rw [busOfStr, List.length_cons, pow_succ]
    have := codeOfChr_lt c
    omega

/-- `LW` bits hold every length up to `STR_MAX` (R51). -/
theorem lt_two_pow_lenWidth {n strMax : Nat} (h : n ≤ strMax) : n < 2 ^ Config.lenWidth strMax := by
  unfold Config.lenWidth
  split
  · simp; omega
  · exact lt_of_le_of_lt h Nat.lt_log2_self

theorem busOfStr_fits {t : Str} {strMax : Nat} (h : t.length ≤ strMax) :
    busOfStr t < 2 ^ (Config.charBits * strMax) := by
  rw [Config.charBits, pow_mul]
  exact lt_of_lt_of_le (busOfStr_lt t) (Nat.pow_le_pow_right (by norm_num) h)

end Sys2Proof
end

