-- ==== Sys2Proof/Laws/State.lean ====
section
/-! SUPPORT. One lemma per field per update of the state and of the CLA register set. -/

namespace Sys2Proof.Machine

@[simp] theorem State.withCla_cla (s : State) (r : ClaRegs) : (s.withCla r).cla = r := rfl
@[simp] theorem State.withCla_inst (s : State) (r : ClaRegs) : (s.withCla r).inst = s.inst := rfl
@[simp] theorem State.withCla_inputs (s : State) (r : ClaRegs) : (s.withCla r).inputs = s.inputs := rfl
@[simp] theorem State.withCla_response (s : State) (r : ClaRegs) :
    (s.withCla r).response = s.response := rfl

@[simp] theorem State.withResponse_cla (s : State) (o : Option OpOutcome) :
    (s.withResponse o).cla = s.cla := rfl
@[simp] theorem State.withResponse_inst (s : State) (o : Option OpOutcome) :
    (s.withResponse o).inst = s.inst := rfl
@[simp] theorem State.withResponse_inputs (s : State) (o : Option OpOutcome) :
    (s.withResponse o).inputs = s.inputs := rfl
@[simp] theorem State.withResponse_response (s : State) (o : Option OpOutcome) :
    (s.withResponse o).response = o := rfl

@[simp] theorem State.withInputs_cla (s : State) (cs : List Cycle) : (s.withInputs cs).cla = s.cla := rfl
@[simp] theorem State.withInputs_inst (s : State) (cs : List Cycle) :
    (s.withInputs cs).inst = s.inst := rfl
@[simp] theorem State.withInputs_inputs (s : State) (cs : List Cycle) :
    (s.withInputs cs).inputs = cs := rfl
@[simp] theorem State.withInputs_response (s : State) (cs : List Cycle) :
    (s.withInputs cs).response = s.response := rfl

@[simp] theorem State.withResponse_withResponse (s : State) (o o' : Option OpOutcome) :
    (s.withResponse o).withResponse o' = s.withResponse o' := rfl
@[simp] theorem State.withCla_withCla (s : State) (r r' : ClaRegs) :
    (s.withCla r).withCla r' = s.withCla r' := rfl
@[simp] theorem State.withInputs_withInputs (s : State) (cs cs' : List Cycle) :
    (s.withInputs cs).withInputs cs' = s.withInputs cs' := rfl
@[simp] theorem State.withCla_self (s : State) : s.withCla s.cla = s := rfl
@[simp] theorem State.withResponse_withCla (s : State) (o : Option OpOutcome) (r : ClaRegs) :
    (s.withResponse o).withCla r = (s.withCla r).withResponse o := rfl
@[simp] theorem State.withResponse_withInputs (s : State) (o : Option OpOutcome) (cs : List Cycle) :
    (s.withResponse o).withInputs cs = (s.withInputs cs).withResponse o := rfl
@[simp] theorem State.withCla_withInputs (s : State) (r : ClaRegs) (cs : List Cycle) :
    (s.withCla r).withInputs cs = (s.withInputs cs).withCla r := rfl

namespace ClaRegs

variable (r : ClaRegs) (a b : Vec4) (cin : Bit)

@[simp] theorem storeOperands_A : (r.storeOperands a b cin).A = a := rfl
@[simp] theorem storeOperands_B : (r.storeOperands a b cin).B = b := rfl
@[simp] theorem storeOperands_Cin : (r.storeOperands a b cin).Cin = cin := rfl
@[simp] theorem storeOperands_P : (r.storeOperands a b cin).P = r.P := rfl
@[simp] theorem storeOperands_G : (r.storeOperands a b cin).G = r.G := rfl
@[simp] theorem storeOperands_Sum : (r.storeOperands a b cin).Sum = r.Sum := rfl
@[simp] theorem storeOperands_Cout : (r.storeOperands a b cin).Cout = r.Cout := rfl

@[simp] theorem storeSignals_A : r.storeSignals.A = r.A := rfl
@[simp] theorem storeSignals_B : r.storeSignals.B = r.B := rfl
@[simp] theorem storeSignals_Cin : r.storeSignals.Cin = r.Cin := rfl
@[simp] theorem storeSignals_P : r.storeSignals.P = claPropagate r.A r.B := rfl
@[simp] theorem storeSignals_G : r.storeSignals.G = claGenerate r.A r.B := rfl
@[simp] theorem storeSignals_Sum : r.storeSignals.Sum = claSum (claPropagate r.A r.B) r.Cin := rfl
@[simp] theorem storeSignals_Cout :
    r.storeSignals.Cout = claCout (claPropagate r.A r.B) (claGenerate r.A r.B) := rfl

/-- Storing operands twice is storing the second ones (R76). -/
@[simp] theorem storeOperands_storeOperands (a' b' : Vec4) (cin' : Bit) :
    (r.storeOperands a b cin).storeOperands a' b' cin' = r.storeOperands a' b' cin' := rfl

/-- Computing twice is computing once (R40). -/
@[simp] theorem storeSignals_storeSignals : r.storeSignals.storeSignals = r.storeSignals := rfl

/-- What a full cycle leaves does not depend on the registers before it (R82). -/
theorem storeSignals_storeOperands_eq (r' : ClaRegs) :
    (r.storeOperands a b cin).storeSignals = (r'.storeOperands a b cin).storeSignals := rfl

end ClaRegs

end Sys2Proof.Machine
end

