-- ==== Sys2Proof/Laws/Ops.lean ====
section
/-! SUPPORT. Each shared operation, once: everything it can answer. -/

namespace Sys2Proof.Machine

/-- `deliver` either answers `Ok(r)` and leaves everything else, or refuses a result that does not fit. -/
theorem deliver_cases (r : Result) (s : State) :
    (holdsResult s.inst r = true ∧ deliver r s = .next (s.withResponse (some (.ok r))))
    ∨ (holdsResult s.inst r = false ∧ deliver r s = .refused .outsideCapacity) := by
  unfold deliver; cases holdsResult s.inst r <;> simp

theorem deliver_eq {r : Result} {s : State} (h : holdsResult s.inst r = true) :
    deliver r s = .next (s.withResponse (some (.ok r))) := by simp [deliver, h]

theorem deliver_next {r : Result} {s t : State} (h : deliver r s = .next t) :
    holdsResult s.inst r = true ∧ t = s.withResponse (some (.ok r)) := by
  rcases deliver_cases r s with ⟨hf, h'⟩ | ⟨-, h'⟩ <;> rw [h'] at h <;> cases h
  exact ⟨hf, rfl⟩

/-- `Ok()` fits every instance. -/
@[simp] theorem deliver_unit (s : State) : deliver .unit s = .next (s.withResponse (some (.ok .unit))) := rfl

/-- R100: taking the exception changes nothing but the answer. -/
theorem raiseInvalidInput_eq (s : State) :
    raiseInvalidInput s = .next (s.withResponse (some .invalidInput)) := rfl

theorem withOperands_eq {ts : List Str} {s : State} (rest : Host.Outcome State Fault Refusal)
    (h : ts.all (holdsStr s.inst) = true) : withOperands ts s rest = rest := by simp [withOperands, h]

theorem withOperands_refused {ts : List Str} {s : State} (rest : Host.Outcome State Fault Refusal)
    (h : ts.all (holdsStr s.inst) = false) : withOperands ts s rest = .refused .outsideCapacity := by
  simp [withOperands, h]

theorem withOperands_next {ts : List Str} {s t : State} {rest : Host.Outcome State Fault Refusal}
    (h : withOperands ts s rest = .next t) : ts.all (holdsStr s.inst) = true ∧ rest = .next t := by
  unfold withOperands at h
  split at h
  · exact ⟨‹_›, h⟩
  · cases h

/-- `thenIfOk` on an outcome that ended in `Ok` runs on. -/
theorem thenIfOk_ok {s : State} {r : Result} {f : State → Host.Outcome State Fault Refusal}
    (h : s.response = some (.ok r)) : thenIfOk (.next s) f = f s := by simp [thenIfOk, h]

/-- `thenIfOk` on an outcome that ended in the error stops there. -/
theorem thenIfOk_invalidInput {s : State} {f : State → Host.Outcome State Fault Refusal}
    (h : s.response = some .invalidInput) : thenIfOk (.next s) f = .next s := by simp [thenIfOk, h]

end Sys2Proof.Machine
end

