-- ==== Sys2Proof/Laws/Exec.lean ====
section
/-! SUPPORT. What an operation and a step can do, once: the registers and the outcome of each operation
as functions of its operands and the registers before it, and `exec` and `step` in those terms. -/

namespace Sys2Proof.Machine

/-- The registers after an operation that was not refused (10_state.md R19). -/
def regsAfter (i : Instr) (r : ClaRegs) : ClaRegs :=
  match i with
  | .claSet a b cin =>
    match vec4 a, vec4 b with
    | some va, some vb => r.storeOperands va vb cin
    | _, _ => r
  | .claCompute => r.storeSignals
  | .rcaAdd _ _ => r
  | .claGet => r
  | .bin2dec _ => r
  | .dec2bin _ => r

/-- The outcome of an operation that was not refused (00_scope.md R13). -/
def outcomeOf (i : Instr) (r : ClaRegs) : OpOutcome :=
  match i with
  | .rcaAdd a b =>
    match vec4 a, vec4 b with
    | some va, some vb => .ok (.str (rcaResult va vb))
    | _, _ => .invalidInput
  | .claSet a b _ => if valid4 a && valid4 b then .ok .unit else .invalidInput
  | .claCompute => .ok .unit
  | .claGet => .ok (.pair (str4 r.Sum) [bit2chr r.Cout])
  | .bin2dec t => ((binValue t).map (fun n => OpOutcome.ok (.int n))).getD .invalidInput
  | .dec2bin t => ((decValue t).map (fun n => OpOutcome.ok (.str (minbin n)))).getD .invalidInput

/-- The state after an operation that was not refused. -/
def afterOp (i : Instr) (s : State) : State :=
  (s.withCla (regsAfter i s.cla)).withResponse (some (outcomeOf i s.cla))

@[simp] theorem afterOp_cla (i : Instr) (s : State) : (afterOp i s).cla = regsAfter i s.cla := rfl
@[simp] theorem afterOp_inst (i : Instr) (s : State) : (afterOp i s).inst = s.inst := rfl
@[simp] theorem afterOp_inputs (i : Instr) (s : State) : (afterOp i s).inputs = s.inputs := rfl
@[simp] theorem afterOp_response (i : Instr) (s : State) :
    (afterOp i s).response = some (outcomeOf i s.cla) := rfl

/-- The result of an outcome fits the instance; the error always does. -/
def holdsOutcome (inst : Instance) : OpOutcome → Bool
  | .ok r => holdsResult inst r
  | .invalidInput => true

/-- An operation is refused for capacity alone, or answers `afterOp` (R13, R94). -/
theorem exec_cases (i : Instr) (s : State) :
    (exec i s = .next (afterOp i s) ∧ within s.inst i = true ∧ holdsOutcome s.inst (outcomeOf i s.cla) = true)
    ∨ (exec i s = .refused .outsideCapacity
        ∧ (within s.inst i = false ∨ (s.inst.legal = false ∧ raises i = false))) := by
  have short : ∀ {t : Str}, t.length ≤ 5 → holdsStr s.inst t = false → s.inst.legal = false := by
    intro t ht h
    by_contra hl
    rw [holdsStr_of_legal (by simpa using hl) ht] at h
    cases h
  cases i with
  | rcaAdd a b =>
    by_cases hw : ([a, b] : List Str).all (holdsStr s.inst) = true
    · have hw' : within s.inst (.rcaAdd a b) = true := by simpa [within] using hw
      simp only [exec, execRcaAdd, withOperands_eq _ hw]
      cases hva : vec4 a <;> cases hvb : vec4 b <;>
        simp only [afterOp, regsAfter, outcomeOf, hva, hvb, State.withCla_self, raiseInvalidInput_eq,
          holdsOutcome, hw', true_and, and_self, true_or]
      rename_i va vb
      rcases deliver_cases (.str (rcaResult va vb)) s with ⟨hf, h⟩ | ⟨hf, h⟩
      · exact .inl ⟨h, by simpa using hf⟩
      · exact .inr ⟨h, .inr ⟨short (rcaResult_length_le va vb) hf,
          by simp [raises, valid4_eq_isSome, hva, hvb]⟩⟩
    · have hw := Bool.eq_false_iff.2 hw
      refine .inr ⟨by simp only [exec, execRcaAdd, withOperands_refused _ hw], .inl ?_⟩
      simpa [within] using hw
  | claSet a b cin =>
    by_cases hw : ([a, b] : List Str).all (holdsStr s.inst) = true
    · have hw' : within s.inst (.claSet a b cin) = true := by simpa [within] using hw
      left
      simp only [exec, execClaSet, withOperands_eq _ hw]
      cases hva : vec4 a <;> cases hvb : vec4 b <;>
        simp [afterOp, regsAfter, outcomeOf, hva, hvb, raiseInvalidInput_eq, holdsOutcome, hw',
          valid4_eq_isSome, holdsResult]
    · have hw := Bool.eq_false_iff.2 hw
      refine .inr ⟨by simp only [exec, execClaSet, withOperands_refused _ hw], .inl ?_⟩
      simpa [within] using hw
  | claCompute => exact .inl ⟨rfl, rfl, rfl⟩
  | claGet =>
    rcases deliver_cases (.pair (str4 s.cla.Sum) [bit2chr s.cla.Cout]) s with ⟨hf, h⟩ | ⟨hf, h⟩
    · exact .inl ⟨h, rfl, hf⟩
    · exact .inr ⟨h, .inr ⟨short (by simp [str4]) hf, rfl⟩⟩
  | bin2dec t =>
    by_cases hw : ([t] : List Str).all (holdsStr s.inst) = true
    · have ht : holdsStr s.inst t = true := by simpa using hw
      simp only [exec, execBin2Dec, withOperands_eq _ hw]
      cases hv : binValue t with
      | none => simp [afterOp, regsAfter, outcomeOf, hv, raiseInvalidInput_eq, holdsOutcome, within, ht]
      | some n =>
        rcases deliver_cases (.int n) s with ⟨hf, h⟩ | ⟨hf, h⟩
        · left; simp only [holdsResult] at hf
          simp [afterOp, regsAfter, outcomeOf, hv, h, holdsOutcome, holdsResult, within, ht, hf]
        · right; simp only [holdsResult] at hf
          simp [h, within, hv, hf]
    · have hw := Bool.eq_false_iff.2 hw
      refine .inr ⟨by simp only [exec, execBin2Dec, withOperands_refused _ hw], .inl ?_⟩
      have ht : holdsStr s.inst t = false := by simpa using hw
      simp [within, ht]
  | dec2bin t =>
    by_cases hw : ([t] : List Str).all (holdsStr s.inst) = true
    · have ht : holdsStr s.inst t = true := by simpa using hw
      simp only [exec, execDec2Bin, withOperands_eq _ hw]
      cases hv : decValue t with
      | none => simp [afterOp, regsAfter, outcomeOf, hv, raiseInvalidInput_eq, holdsOutcome, within, ht]
      | some n =>
        cases hi : holdsInt s.inst n with
        | false => right; simp [within, hv, hi]
        | true =>
          rcases deliver_cases (.str (minbin n)) s with ⟨hf, h⟩ | ⟨hf, h⟩
          · left; simp only [holdsResult] at hf
            simp [afterOp, regsAfter, outcomeOf, hv, h, holdsOutcome, holdsResult, within, ht, hf, hi]
          · right; simp only [holdsResult] at hf
            simp [h, within, hv, hf]
    · have hw := Bool.eq_false_iff.2 hw
      refine .inr ⟨by simp only [exec, execDec2Bin, withOperands_refused _ hw], .inl ?_⟩
      have ht : holdsStr s.inst t = false := by simpa using hw
      simp [within, ht]

/-- An operation that answers a next state answers `afterOp`. -/
theorem exec_next {i : Instr} {s t : State} (h : exec i s = .next t) : t = afterOp i s := by
  rcases exec_cases i s with ⟨h', -⟩ | ⟨h', -⟩ <;> rw [h'] at h <;> cases h
  rfl

/-- A legal instance answers every operation within its capacity. -/
theorem exec_of_within {i : Instr} {s : State} (hl : s.inst.legal = true) (hw : within s.inst i = true) :
    exec i s = .next (afterOp i s) := by
  rcases exec_cases i s with ⟨h, -⟩ | ⟨-, h | h⟩
  · exact h
  · rw [hw] at h; cases h
  · rw [hl] at h; cases h.1

/-- R98: the outcome is the error exactly when the table says so. -/
theorem outcomeOf_eq_invalidInput (i : Instr) (r : ClaRegs) :
    outcomeOf i r = .invalidInput ↔ raises i = true := by
  cases i with
  | rcaAdd a b => cases ha : vec4 a <;> cases hb : vec4 b <;> simp [outcomeOf, raises, valid4_eq_isSome, ha, hb]
  | claSet a b cin => cases ha : vec4 a <;> cases hb : vec4 b <;> simp [outcomeOf, raises, valid4_eq_isSome, ha, hb]
  | claCompute => simp [outcomeOf, raises]
  | claGet => simp [outcomeOf, raises]
  | bin2dec t => cases h : binValue t <;> simp [outcomeOf, raises, ← binValue_isSome, h]
  | dec2bin t => cases h : decValue t <;> simp [outcomeOf, raises, ← decValue_isSome, h]

/-- R34, R100: an operation that raises the exception leaves every register. -/
theorem regsAfter_of_raises {i : Instr} (h : raises i = true) (r : ClaRegs) : regsAfter i r = r := by
  cases i with
  | claSet a b cin =>
    cases ha : vec4 a <;> cases hb : vec4 b <;> simp [raises, valid4_eq_isSome, ha, hb] at h <;>
      simp [regsAfter, ha, hb]
  | claCompute => cases h
  | _ => rfl

/-- R19, R119: the operations of the other units leave every register. -/
theorem regsAfter_of_not_usesCla {i : Instr} (h : usesCla i = false) (r : ClaRegs) : regsAfter i r = r := by
  cases i <;> first | rfl | cases h

/-- An operation that answers a next state fits its instance. -/
theorem within_of_exec_next {i : Instr} {s t : State} (h : exec i s = .next t) :
    within s.inst i = true ∧ holdsOutcome s.inst (outcomeOf i s.cla) = true := by
  rcases exec_cases i s with ⟨-, hw⟩ | ⟨h', -⟩
  · exact hw
  · rw [h'] at h; cases h

/-- The answer before an operation has no part in it (R104). -/
theorem exec_withResponse (i : Instr) (s : State) (o : Option OpOutcome) :
    exec i (s.withResponse o) = exec i s := by
  cases i <;> rfl

/-- An outcome with another list of cycles in its next state. -/
def outcomeWithInputs (cs : List Cycle) :
    Host.Outcome State Fault Refusal → Host.Outcome State Fault Refusal
  | .next t => .next (t.withInputs cs)
  | .fault r => .fault r
  | .refused r => .refused r

theorem deliver_withInputs (r : Result) (s : State) (cs : List Cycle) :
    deliver r (s.withInputs cs) = outcomeWithInputs cs (deliver r s) := by
  unfold deliver
  rw [State.withInputs_inst]
  split <;> rfl

theorem withOperands_withInputs (ts : List Str) (s : State) (cs : List Cycle)
    (rest : Host.Outcome State Fault Refusal) :
    withOperands ts (s.withInputs cs) (outcomeWithInputs cs rest)
      = outcomeWithInputs cs (withOperands ts s rest) := by
  unfold withOperands
  rw [State.withInputs_inst]
  split <;> rfl

/-- What the host is going to present has no part in an operation, which leaves it alone. -/
theorem exec_withInputs (i : Instr) (s : State) (cs : List Cycle) :
    exec i (s.withInputs cs) = outcomeWithInputs cs (exec i s) := by
  cases i with
  | rcaAdd a b =>
    simp only [exec, execRcaAdd, ← withOperands_withInputs]
    cases vec4 a <;> cases vec4 b <;> first | rfl | (simp only [deliver_withInputs])
  | claSet a b cin =>
    simp only [exec, execClaSet, ← withOperands_withInputs]
    cases vec4 a <;> cases vec4 b <;> rfl
  | claCompute => rfl
  | claGet => exact deliver_withInputs _ s cs
  | bin2dec t =>
    simp only [exec, execBin2Dec, ← withOperands_withInputs]
    cases binValue t <;> first | rfl | (simp only [deliver_withInputs])
  | dec2bin t =>
    simp only [exec, execDec2Bin, ← withOperands_withInputs]
    cases decValue t with
    | none => rfl
    | some n =>
      simp only [deliver_withInputs, State.withInputs_inst]
      cases holdsInt s.inst n <;> rfl

/-- What a step can do (R113, R122, R15): a reset edge, a cycle without a command, or one operation. -/
theorem step_next {s t : State} (h : step s = .next t) :
    t = resetEdge (afterTake s) ∨ t = idle (afterTake s)
    ∨ ∃ i, decode (nextCycle s).cmd = .op i ∧ exec i (afterTake s) = .next t ∧ t = afterOp i (afterTake s) := by
  unfold step runCycle at h
  split at h
  · cases h; exact .inl rfl
  · split at h
    · unfold runCommand at h
      split at h
      · exact .inr (.inr ⟨_, ‹_›, h, exec_next h⟩)
      · cases h
    · cases h; exact .inr (.inl rfl)

end Sys2Proof.Machine
end

