-- ==== Sys2Proof/Laws/PerInstr.lean ====
section
/-! SUPPORT. Statements about every operation as syntax, one lemma per constructor. -/

/-- 30_encoding.md R58, R50: the encoded command carries a select that is not reserved, namely the
operation's own, and its format's operands. -/
def Sys2Proof.Laws.SelectCode.Statement (i : Sys2Proof.Instr) : Prop :=
  (Sys2Proof.encode i).op = Sys2Proof.selectOf i ∧ (Sys2Proof.encode i).op.toNat ≤ 5

theorem Sys2Proof.Laws.SelectCode.rcaAdd (a b : Sys2Proof.Str) :
    Sys2Proof.Laws.SelectCode.Statement (.rcaAdd a b) := ⟨rfl, by simp [Sys2Proof.encode, Sys2Proof.commandOf, Sys2Proof.selectOf]⟩
theorem Sys2Proof.Laws.SelectCode.claSet (a b : Sys2Proof.Str) (cin : Sys2Proof.Bit) :
    Sys2Proof.Laws.SelectCode.Statement (.claSet a b cin) := ⟨rfl, by simp [Sys2Proof.encode, Sys2Proof.commandOf, Sys2Proof.selectOf]⟩
theorem Sys2Proof.Laws.SelectCode.claCompute : Sys2Proof.Laws.SelectCode.Statement .claCompute :=
  ⟨rfl, by simp [Sys2Proof.encode, Sys2Proof.commandOf, Sys2Proof.selectOf]⟩
theorem Sys2Proof.Laws.SelectCode.claGet : Sys2Proof.Laws.SelectCode.Statement .claGet :=
  ⟨rfl, by simp [Sys2Proof.encode, Sys2Proof.commandOf, Sys2Proof.selectOf]⟩
theorem Sys2Proof.Laws.SelectCode.bin2dec (t : Sys2Proof.Str) :
    Sys2Proof.Laws.SelectCode.Statement (.bin2dec t) := ⟨rfl, by simp [Sys2Proof.encode, Sys2Proof.commandOf, Sys2Proof.selectOf]⟩
theorem Sys2Proof.Laws.SelectCode.dec2bin (t : Sys2Proof.Str) :
    Sys2Proof.Laws.SelectCode.Statement (.dec2bin t) := ⟨rfl, by simp [Sys2Proof.encode, Sys2Proof.commandOf, Sys2Proof.selectOf]⟩
end

