-- ==== Sys2Proof/Tests/Slice0.lean ====
section
/-! SUPPORT. The model's own tests. Expected values are those printed in spec/95_test_vectors.md (the
vector is named) or worked out by hand from the rule named. After them, one witness for the hypotheses
of each statement of Certificates/Slice0/Obligations.lean that has any. -/

namespace Sys2Proof.Tests

open Sys2Proof Sys2Proof.Machine

/-- A machine with the given registers on the smallest bounded instance (R8). -/
def small (r : ClaRegs) : State :=
  { cla := r, inst := .bounded 5 5, inputs := [], response := none }

/-- A machine with the given registers on the reference instance. -/
def free (r : ClaRegs) : State := { small r with inst := .unbounded }

/-- The registers after the first cycle of V6.1. -/
def afterV61 : ClaRegs :=
  { A := 0b0110, B := 0b0101, Cin := false, P := 0b0011, G := 0b0100, Sum := 0b0011, Cout := true }

/-- What an operation answered and left in the registers; nothing if it was refused. -/
def seen (o : Host.Outcome State Fault Refusal) : Option (OpOutcome × ClaRegs) :=
  match o with
  | .next t => t.response.map (fun r => (r, t.cla))
  | .fault _ => none
  | .refused _ => none

/-- The reason an operation or step was refused. -/
def refusal (o : Host.Outcome State Fault Refusal) : Option String :=
  match o with
  | .refused (.reservedSelect _) => some "reserved select"
  | .refused .outsideCapacity => some "outside capacity"
  | _ => none

/-! ### Well-formedness: each check refuses -/

/-- U+0661, a digit of no 8-bit code (V8.33). -/
def wide : Chr := Char.ofNat 0x661

theorem test_wf_rcaAdd_first : (Instr.rcaAdd [wide] ['1']).wf = false := by decide
theorem test_wf_rcaAdd_second : (Instr.rcaAdd ['1'] [wide]).wf = false := by decide
theorem test_wf_claSet_first : (Instr.claSet [wide] ['1'] true).wf = false := by decide
theorem test_wf_claSet_second : (Instr.claSet ['1'] [wide] true).wf = false := by decide
theorem test_wf_bin2dec : (Instr.bin2dec ['1', wide]).wf = false := by decide
theorem test_wf_dec2bin : (Instr.dec2bin [wide, '1']).wf = false := by decide
theorem test_wf_last_code : (Instr.dec2bin [Char.ofNat 255]).wf = true := by decide
theorem test_onPorts_s1Len : Command.onPorts (.bounded 5 5) ⟨0, 8, 0, 0, 0, false⟩ = false := by decide
theorem test_onPorts_s1Chr : Command.onPorts (.bounded 5 5) ⟨0, 0, 2 ^ 40, 0, 0, false⟩ = false := by decide
theorem test_onPorts_s2Len : Command.onPorts (.bounded 5 5) ⟨0, 0, 0, 8, 0, false⟩ = false := by decide
theorem test_onPorts_s2Chr : Command.onPorts (.bounded 5 5) ⟨0, 0, 0, 0, 2 ^ 40, false⟩ = false := by decide
theorem test_onPorts_fits : Command.onPorts (.bounded 8 8) ⟨0, 8, 2 ^ 64 - 1, 8, 2 ^ 64 - 1, true⟩ = true := by
  decide
theorem test_instance_strMax : (Instance.bounded 4 5).legal = false := by decide
theorem test_instance_vw : (Instance.bounded 5 4).legal = false := by decide

/-! ### Decoding words written out from the spec (V10: STR_MAX = 8, `LW = 4`) -/

theorem test_lenWidth_V10 : Config.lenWidth 8 = 4 := by decide

/-- V10.1. -/
theorem test_decode_rcaAdd :
    decode ⟨0b000, 4, 0x0000000031313030, 4, 0x0000000031303030, false⟩
      = .op (.rcaAdd ['0', '0', '1', '1'] ['0', '0', '0', '1']) := by decide
/-- V10.5. -/
theorem test_decode_claSet :
    decode ⟨0b001, 4, 0x0000000030313130, 4, 0x0000000031303130, false⟩
      = .op (.claSet ['0', '1', '1', '0'] ['0', '1', '0', '1'] false) := by decide
/-- V10.6. -/
theorem test_decode_claCompute : decode ⟨0b010, 7, 99, 3, 5, true⟩ = .op .claCompute := by decide
/-- V10.7. -/
theorem test_decode_claGet : decode ⟨0b011, 7, 99, 3, 5, true⟩ = .op .claGet := by decide
/-- V10.9. -/
theorem test_decode_bin2dec :
    decode ⟨0b100, 4, 0x0000000030313031, 7, 99, true⟩ = .op (.bin2dec ['1', '0', '1', '0']) := by decide
/-- V10.12. -/
theorem test_decode_dec2bin :
    decode ⟨0b101, 3, 0x0000000000613231, 7, 99, true⟩ = .op (.dec2bin ['1', '2', 'a']) := by decide
/-- V10.14. -/
theorem test_decode_reserved6 : decode ⟨0b110, 0, 0, 0, 0, false⟩ = .reserved 6 := by decide
/-- V10.15. -/
theorem test_decode_reserved7 : decode ⟨0b111, 0, 0, 0, 0, false⟩ = .reserved 7 := by decide
/-- V10.8: the command of `CLA_SET "101", "0001", 1`. -/
theorem test_encode_claSet :
    encode (.claSet ['1', '0', '1'] ['0', '0', '0', '1'] true)
      = ⟨0b001, 3, 0x0000000000313031, 4, 0x0000000031303030, true⟩ := by decide
theorem test_tableWord_rcaAdd : decodeTableWord 8 0 = some (.rcaAdd [] []) := by decide
theorem test_tableWord_dec2bin : decodeTableWord 8 5 = some (.dec2bin []) := by decide
theorem test_tableWord_reserved : decodeTableWord 8 6 = none := by decide

/-! ### Operations -/

/-- V1.2: the final carry is prepended. -/
theorem test_rcaAdd_carry :
    seen (exec (.rcaAdd ['1', '1', '1', '1'] ['0', '0', '0', '1']) (small afterV61))
      = some (.ok (.str ['1', '0', '0', '0', '0']), afterV61) := by decide
/-- V3.4: the right length with a character that is not binary. -/
theorem test_rcaAdd_nonBinary :
    seen (exec (.rcaAdd ['1', '0', '2', '0'] ['0', '0', '1', '1']) (small afterV61))
      = some (.invalidInput, afterV61) := by decide
/-- V6.1 step 4: the operands are stored and the results kept. -/
theorem test_claSet_stores :
    seen (exec (.claSet ['1', '1', '1', '1'] ['0', '0', '0', '1'] true) (small afterV61))
      = some (.ok .unit, { afterV61 with A := 0b1111, B := 0b0001, Cin := true }) := by decide
/-- V3.15, with `cin = 1` presented: nothing is stored. -/
theorem test_claSet_invalid :
    seen (exec (.claSet ['1', '0', '1'] ['0', '0', '0', '1'] true) (small afterV61))
      = some (.invalidInput, afterV61) := by decide
/-- V5.2: `Cin = 1` complements the sum; the carry-out does not see it. -/
theorem test_claCompute_cin :
    seen (exec .claCompute (small { ClaRegs.reset with A := 0b0110, B := 0b0101, Cin := true }))
      = some (.ok .unit, { afterV61 with Cin := true, Sum := 0b1100 }) := by decide
/-- V5.19: no term of the carry-out expression is 1. -/
theorem test_claCompute_noCarry :
    seen (exec .claCompute (small { ClaRegs.reset with A := 0b1010, B := 0b0110 }))
      = some (.ok .unit, { A := 0b1010, B := 0b0110, Cin := false, P := 0b1100, G := 0b0010,
                           Sum := 0b1100, Cout := false }) := by decide
/-- V6.1 step 3. -/
theorem test_claGet_pair :
    seen (exec .claGet (small afterV61)) = some (.ok (.pair ['0', '0', '1', '1'] ['1']), afterV61) := by
  decide
/-- V6.5. -/
theorem test_claGet_reset :
    seen (exec .claGet State.reset) = some (.ok (.pair ['0', '0', '0', '0'] ['0']), ClaRegs.reset) := by
  decide
/-- V7.8. -/
theorem test_bin2dec_value :
    seen (exec (.bin2dec ['1', '1', '1', '1', '0']) (small afterV61)) = some (.ok (.int 30), afterV61) := by
  decide
/-- V7.13: the empty numeral. -/
theorem test_bin2dec_empty : seen (exec (.bin2dec []) (small afterV61)) = some (.invalidInput, afterV61) := by
  decide
/-- V8.16: leading zeros of the operand are dropped. -/
theorem test_dec2bin_leadingZeros :
    seen (exec (.dec2bin ['0', '0', '7']) (small afterV61))
      = some (.ok (.str ['1', '1', '1']), afterV61) := by decide
/-- V8.2 (decision D14). -/
theorem test_dec2bin_zero :
    seen (exec (.dec2bin ['0']) (small afterV61)) = some (.ok (.str ['0']), afterV61) := by decide
/-- V8.33: digits outside the ten digit characters. -/
theorem test_dec2bin_wideDigit :
    seen (exec (.dec2bin [wide]) (free afterV61)) = some (.invalidInput, afterV61) := by decide
/-- V8.11 in the instance of V10: the result needs 9 characters (U2). -/
theorem test_dec2bin_capacity :
    refusal (exec (.dec2bin ['2', '5', '6']) { small afterV61 with inst := .bounded 8 9 })
      = some "outside capacity" := by decide
/-- V7.11 in the instance of V10: the value needs `VW >= 9` (U2). -/
theorem test_bin2dec_capacity :
    refusal (exec (.bin2dec ['1', '0', '0', '0', '0', '0', '0', '0', '0'])
      { small afterV61 with inst := .bounded 9 8 }) = some "outside capacity" := by decide
/-- V5.7, as the pseudo-operation (R66). -/
theorem test_claAdd :
    (seen (claAdd ['1', '1', '1', '1'] ['0', '0', '0', '1'] true (small afterV61))).map Prod.fst
      = some (.ok (.pair ['0', '0', '0', '1'] ['1'])) := by decide

/-! ### Steps and ports -/

/-- V10.7: the ports of `CLA_GET => Ok("0011", "1")`. -/
theorem test_ports_claGet :
    respPorts (some (.ok (.pair ['0', '0', '1', '1'] ['1'])))
      = ⟨true, some false, some 4, some 0x0000000031313030, some 0x31, none⟩ := by decide
/-- V10.10: an error has no result. -/
theorem test_ports_error :
    respPorts (some .invalidInput) = ⟨true, some true, none, none, none, none⟩ := by decide
/-- V6.10 step 3 with a command presented as well (R113). -/
theorem test_step_reset :
    (match step { small afterV61 with inputs := [⟨true, true, encode .claGet⟩] } with
      | .next t => decide (t = small ClaRegs.reset)
      | _ => false) = true := by decide
/-- V10.14, presented as an opcode-table word (U1). -/
theorem test_step_reserved :
    refusal (step (State.reset.withFetchWord 8 6)) = some "reserved select" := by decide
theorem test_step_fetchWord :
    seen (step (State.reset.withFetchWord 8 3)) = some (.ok (.pair ['0', '0', '0', '0'] ['0']), ClaRegs.reset) := by
  decide

/-! ### Witnesses: the hypotheses of each statement can be met -/

/-- Five characters, the capacity of the smallest instance. -/
def five : Str := ['1', '0', '0', '0', '0']

/-- A cycle with a command. -/
def cyc (i : Instr) : Cycle := ⟨false, true, encode i⟩

/-- The smallest instance with one cycle to come. -/
def with1 (c : Cycle) : State := { small afterV61 with inputs := [c] }

theorem witness_OnlyReservedSelectsAreRejected :
    (5 : BitVec 3).toNat ≤ 5 ∧ 6 ≤ (6 : BitVec 3).toNat ∧ 6 ≤ (7 : BitVec 3).toNat := by decide
theorem witness_BusCarriesCharactersLowFirst : (3 : Nat) < 4 := by decide
theorem witness_DecodeOfEncode : WellFormed (.claSet five [Char.ofNat 255] true) := by decide
theorem witness_EncodeOfDecode :
    decode (encode (.claSet ['1'] [Char.ofNat 255] true)) = .op (.claSet ['1'] [Char.ofNat 255] true)
    ∧ (0b001 : BitVec 3) ≠ 0b010 ∧ (0b001 : BitVec 3) ≠ 0b011
    ∧ (encode (.claSet ['1'] [Char.ofNat 255] true)).s1Chr < 256 ^ 1
    ∧ (encode (.claSet ['1'] [Char.ofNat 255] true)).s2Chr < 256 ^ 1 := by decide
theorem witness_EncodedCommandFitsPorts : within (.bounded 5 5) (.rcaAdd five five) = true := by decide
theorem witness_IgnoredFieldsChangeNothing :
    ((0b100 : BitVec 3) ≠ 0b010 → (0b100 : BitVec 3) ≠ 0b011 → (1 : Nat) = 1 ∧ (0x31 : Nat) = 0x31)
    ∧ ((0b100 : BitVec 3) = 0b000 ∨ (0b100 : BitVec 3) = 0b001 → (7 : Nat) = 0 ∧ (9 : Nat) = 0)
    ∧ ((0b100 : BitVec 3) = 0b001 → true = false) := by decide
theorem witness_StepRunsTheDecodedOperation :
    (with1 (cyc .claGet)).inputs = [cyc .claGet] ∧ (cyc .claGet).rst = false
    ∧ (cyc .claGet).opValid = true ∧ decode (cyc .claGet).cmd = .op .claGet := by decide
theorem witness_ReservedSelectIsRefused :
    (with1 ⟨false, true, tableCommand 8 6⟩).inputs = [⟨false, true, tableCommand 8 6⟩]
    ∧ (tableCommand 8 6).op = 6#3 ∧ (tableCommand 8 7).op = 7#3 := by decide
theorem witness_CycleWithoutCommandHolds :
    (with1 quietCycle).inputs = [quietCycle] ∧ quietCycle.rst = false ∧ quietCycle.opValid = false
    ∧ (small afterV61).inputs = [] := by decide
theorem witness_ResetWinsOverACommand :
    (with1 ⟨true, true, encode .claCompute⟩).inputs = [⟨true, true, encode .claCompute⟩] := by decide
theorem witness_ValidAdderOperands :
    holdsStr (small afterV61).inst five = true ∧ holdsStr (small afterV61).inst [] = true := by decide
theorem witness_InvalidInputChangesNothing :
    within (small afterV61).inst (.claSet five ['1'] true) = true
    ∧ raises (.claSet five ['1'] true) = true := by decide
theorem witness_InvalidInputExactlyWhen :
    (small afterV61).inst.legal = true ∧ within (small afterV61).inst (.dec2bin ['3', '1']) = true
    ∧ within (small afterV61).inst (.dec2bin ['-', '5']) = true := by decide
theorem witness_ErrorIsNotLatched :
    raises (.rcaAdd ['1'] ['1']) = true
    ∧ exec (.rcaAdd ['1'] ['1']) (small afterV61)
      = .next { small afterV61 with response := some .invalidInput } := ⟨by decide, rfl⟩
theorem witness_EveryOperationEndsInAnOutcome :
    (small afterV61).inst.legal = true ∧ within (small afterV61).inst (.bin2dec ['1', '1', '1', '1', '1']) = true := by
  decide
/-- One over each capacity of the smallest instance: an operand of 6 characters; the value 32. -/
theorem witness_OutsideCapacityIsRefused :
    within (small afterV61).inst (.rcaAdd five ('0' :: five)) = false
    ∧ within (small afterV61).inst (.claSet ('0' :: five) five true) = false
    ∧ within (.bounded 6 5) (.bin2dec ['1', '0', '0', '0', '0', '0']) = false
    ∧ within (.bounded 5 6) (.dec2bin ['3', '2']) = false
    ∧ within (.bounded 6 5) (.dec2bin ['3', '2']) = false := by decide
theorem witness_RcaAddMeaning :
    (encode (.rcaAdd five five)).op = 0b000
    ∧ holdsStr (small afterV61).inst five = true
    ∧ ¬(valid4 five = true ∧ valid4 ['0', '0', '0', '1'] = true)
    ∧ (small afterV61).inst.legal = true := by decide
/-- The two sides of the length change: sums 15 and 16. -/
theorem witness_RcaAddIsExactSum :
    (small afterV61).inst.legal = true ∧ vec4 ['1', '1', '1', '1'] = some 15#4
    ∧ vec4 ['0', '0', '0', '0'] = some 0#4 ∧ vec4 ['0', '0', '0', '1'] = some 1#4 := by decide
theorem witness_RcaAddCommutes :
    (small afterV61).inst.legal = true ∧ valid4 ['1', '0', '0', '1'] = true
    ∧ exec (.rcaAdd ['1', '0', '0', '1'] ['0', '1', '1', '1']) (small afterV61)
      = .next { small afterV61 with response := some (.ok (.str five)) } := ⟨by decide, by decide, rfl⟩
theorem witness_RcaAddIsPaddedNumeralOfSum :
    (small afterV61).inst.legal = true ∧ valid4 ['0', '0', '1', '1'] = true
    ∧ valid4 ['0', '0', '0', '1'] = true := by decide
theorem witness_ClaSetStoresOperands : (small afterV61).inst.legal = true := by decide
theorem witness_ClaComputeMeaning : (encode .claCompute).op = 0b010 := by decide
theorem witness_ClaGetReturnsSumAndCout : (small afterV61).inst.legal = true := by decide
theorem witness_ClaSumIsXorOrComplement :
    exec .claCompute (small ClaRegs.reset)
      = .next { small ClaRegs.reset with response := some (.ok .unit) } := rfl
theorem witness_ClaCoutIsReversedCarry :
    exec .claCompute (small afterV61) = .next { small afterV61 with response := some (.ok .unit) }
    ∧ exec .claCompute (free { afterV61 with Cin := true, Sum := 0b1100 })
      = .next { free { afterV61 with Cin := true, Sum := 0b1100 } with response := some (.ok .unit) } :=
  ⟨rfl, rfl⟩
theorem witness_ClaFullCycle : (small afterV61).inst.legal = true := by decide
theorem witness_ClaAddStopsAtTheError :
    holdsStr (small afterV61).inst five = true ∧ holdsStr (small afterV61).inst ['0', '0', '0', '0'] = true
    ∧ ¬(valid4 five = true ∧ valid4 ['0', '0', '0', '0'] = true) := by decide
theorem witness_ClaCycleForgetsThePast :
    (small ClaRegs.reset).inst = (small afterV61).inst ∧ (small afterV61).inst.legal = true
    ∧ valid4 ['0', '1', '1', '0'] = true ∧ valid4 ['0', '1', '0', '1'] = true := by decide
theorem witness_InterleavedCycleIsUndisturbed :
    (small afterV61).inst.legal = true ∧ valid4 ['0', '1', '1', '0'] = true
    ∧ (∀ i ∈ [Instr.rcaAdd five five, .claGet] ++ [Instr.dec2bin ['3', '1'], .claSet [] [] true],
        (usesCla i = false ∨ i = .claGet ∨ raises i = true) ∧ within (small afterV61).inst i = true) := by
  decide
theorem witness_ClaOperationsAreIdempotent :
    usesCla .claGet = true
    ∧ exec .claGet (small afterV61) = .next { small afterV61 with
        response := some (.ok (.pair ['0', '0', '1', '1'] ['1'])) } := ⟨by decide, rfl⟩
theorem witness_ClaOutOfOrder :
    exec (.claSet ['0', '0', '0', '0'] ['0', '0', '0', '0'] true) (small afterV61)
      = .next { small { afterV61 with A := 0, B := 0, Cin := true } with response := some (.ok .unit) }
    ∧ exec .claGet (small afterV61) = .next { small afterV61 with
        response := some (.ok (.pair ['0', '0', '1', '1'] ['1'])) }
    ∧ exec .claGet { small { afterV61 with A := 0, B := 0, Cin := true } with response := some (.ok .unit) }
      = .next { small { afterV61 with A := 0, B := 0, Cin := true } with
          response := some (.ok (.pair ['0', '0', '1', '1'] ['1'])) }
    ∧ exec (.claSet five [] true) (small afterV61)
      = .next { small afterV61 with response := some .invalidInput }
    ∧ raises (.claSet five [] true) = true
    ∧ valid4 ['0', '1', '1', '0'] = true := ⟨rfl, rfl, rfl, rfl, by decide, by decide⟩
theorem witness_Bin2DecMeaning :
    (encode (.bin2dec five)).op = 0b100 ∧ holdsStr (small afterV61).inst ['1', '0', '2'] = true
    ∧ (∃ c ∈ ['1', '0', '2'], c ≠ '0' ∧ c ≠ '1')
    ∧ holdsStr (small afterV61).inst ['1', '1', '1', '1', '1'] = true
    ∧ (∀ c ∈ ['1', '1', '1', '1', '1'], c = '0' ∨ c = '1')
    ∧ holdsInt (small afterV61).inst (weightedSum 2 ['1', '1', '1', '1', '1']) = true :=
  ⟨by decide, by decide, by simp, by decide, by simp, by rfl⟩
/-- Values 0 and 31, the ends of the smallest instance's range. -/
theorem witness_Dec2BinMeaning :
    (∀ c ∈ ['0'], 0x30 ≤ c.toNat ∧ c.toNat ≤ 0x39) ∧ within (small afterV61).inst (.dec2bin ['0']) = true
    ∧ (∀ c ∈ ['3', '1'], 0x30 ≤ c.toNat ∧ c.toNat ≤ 0x39)
    ∧ within (small afterV61).inst (.dec2bin ['3', '1']) = true
    ∧ weightedSum 10 ['0'] = 0 ∧ weightedSum 10 ['3', '1'] = 31 :=
  ⟨by simp, by decide, by simp, by decide, by rfl, by rfl⟩
theorem witness_MinimalNumeralIsUnique : binValue five = some 16 ∧ five.head? = some '1' := by decide
theorem witness_ConversionRoundTrip :
    decValue ['0', '0', '7'] = some 7 ∧ within (small afterV61).inst (.dec2bin ['0', '0', '7']) = true := by
  decide
theorem witness_LeadingZerosAreLost :
    binValue ['0', '0', '1', '1'] = some 3 ∧ decValue ['3'] = some 3
    ∧ within (small afterV61).inst (.dec2bin ['3']) = true
    ∧ binValue ['0', '0'] = some 0 ∧ decValue ['0'] = some 0 := by decide
theorem witness_PureOperationsFrame :
    usesCla (.bin2dec five) = false
    ∧ exec (.bin2dec five) (small afterV61)
      = .next { small afterV61 with response := some (.ok (.int 16)) }
    ∧ (small ClaRegs.reset).inst = (small afterV61).inst := ⟨by decide, rfl, rfl⟩
theorem witness_ClaOperationsFrame :
    exec (.claSet ['0', '0', '0', '0'] ['0', '0', '0', '0'] true) (small afterV61)
      = .next { small { afterV61 with A := 0, B := 0, Cin := true } with response := some (.ok .unit) }
    ∧ exec .claCompute (small afterV61) = .next { small afterV61 with response := some (.ok .unit) }
    ∧ exec .claGet (small afterV61) = .next { small afterV61 with
        response := some (.ok (.pair ['0', '0', '1', '1'] ['1'])) } := ⟨rfl, rfl, rfl⟩
theorem witness_ResultsStayCoherent :
    afterV61.Coherent
    ∧ (∀ a b cin, Instr.rcaAdd five five = .claSet a b cin → raises (.rcaAdd five five) = true)
    ∧ exec (.rcaAdd five five) (small afterV61)
      = .next { small afterV61 with response := some .invalidInput } :=
  ⟨⟨by decide, by decide, by decide, by decide⟩, fun _ _ _ _ => by decide, rfl⟩
theorem witness_StepKeepsResultsOfSomeOperands :
    (with1 (cyc .claCompute)).cla.ResultsOfSomeOperands
    ∧ step (with1 (cyc .claCompute)) = .next { small afterV61 with response := some (.ok .unit) } :=
  ⟨⟨0b0110, 0b0101, false, by decide⟩, rfl⟩
/-- A state that does not meet the invariant, so that the premise says something (V6.3's start). -/
theorem witness_ResultsOfSomeOperands_can_fail :
    ¬ ClaRegs.ResultsOfSomeOperands
      { A := 0b1011, B := 0b0110, Cin := true, P := 0b0101, G := 0b1111, Sum := 0b1001, Cout := true } := by
  unfold ClaRegs.ResultsOfSomeOperands; decide
theorem witness_StepTakesOneCycle :
    step (with1 (cyc .claCompute)) = .next { small afterV61 with response := some (.ok .unit) } := rfl
theorem witness_InstanceStaysLegal :
    (with1 (cyc .claCompute)).inst.legal = true
    ∧ step (with1 (cyc .claCompute)) = .next { small afterV61 with response := some (.ok .unit) } :=
  ⟨by decide, rfl⟩
theorem witness_AnswersAreProper :
    step (with1 (cyc (.bin2dec five))) = .next { small afterV61 with response := some (.ok (.int 16)) } := rfl
/-- Every kind of answer that drives a result port. -/
theorem witness_ResponsePortsFit :
    (with1 (cyc .claGet)).inst = .bounded 5 5
    ∧ step (with1 (cyc .claGet)) = .next { small afterV61 with
        response := some (.ok (.pair ['0', '0', '1', '1'] ['1'])) }
    ∧ (respPorts (some (.ok (.pair ['0', '0', '1', '1'] ['1'])))).rLen = some 4
    ∧ (respPorts (some (.ok (.pair ['0', '0', '1', '1'] ['1'])))).rChr = some 0x31313030
    ∧ (respPorts (some (.ok (.pair ['0', '0', '1', '1'] ['1'])))).rCout = some 0x31
    ∧ step (with1 (cyc (.bin2dec five))) = .next { small afterV61 with response := some (.ok (.int 16)) }
    ∧ (respPorts (some (.ok (.int 16)))).rVal = some 16 :=
  ⟨rfl, rfl, by decide, by decide, by decide, rfl, by decide⟩
theorem witness_RunIsTheOperationsInOrder :
    ∀ i ∈ [Instr.claSet ['1'] five true, .claCompute, .claGet], WellFormed i := by decide
theorem witness_OneOutcomePerOperation :
    (small afterV61).inst.legal = true
    ∧ ∀ i ∈ [Instr.claSet ['1'] five true, .claCompute, .claGet],
        WellFormed i ∧ within (small afterV61).inst i = true := by decide

end Sys2Proof.Tests
end

section
/-! PROOFS. The ripple-carry adder (40_ripple_carry_adder.md R70, R72): what `RCA_ADD` and `BIN2DEC`
answer, R70's loop unrolled, and its result as the padded numeral of the exact sum. -/

namespace Sys2Proof.Machine

/-! ### What the operations answer -/

/-- R99, R100: an operation that raises the exception answers the error and changes nothing else. -/
theorem exec_of_raises {i : Instr} {s : State} (hw : within s.inst i = true) (hr : raises i = true) :
    exec i s = .next (s.withResponse (some .invalidInput)) := by
  rcases exec_cases i s with ⟨h, -⟩ | ⟨-, hw' | ⟨-, hr'⟩⟩
  · rw [h, afterOp, regsAfter_of_raises hr, (outcomeOf_eq_invalidInput i s.cla).2 hr, State.withCla_self]
  · simp [hw] at hw'
  · simp [hr] at hr'

/-- R70's success case: on the strings of two vectors `RCA_ADD` answers the loop's result. -/
theorem exec_rcaAdd_of_vec4 {s : State} {a b : Str} {va vb : Vec4} (hl : s.inst.legal = true)
    (ha : vec4 a = some va) (hb : vec4 b = some vb) :
    exec (.rcaAdd a b) s = .next (s.withResponse (some (.ok (.str (rcaResult va vb))))) := by
  have hw : within s.inst (.rcaAdd a b) = true := by
    rw [vec4_eq_some.1 ha, vec4_eq_some.1 hb]
    simp [within, holdsStr_str4 hl]
  rw [exec_of_within hl hw]
  simp [afterOp, regsAfter, outcomeOf, ha, hb]

/-- R88 on a numeral that the smallest legal capacity holds (R8). -/
theorem exec_bin2dec_of_binValue {s : State} {t : Str} {n : Nat} (hl : s.inst.legal = true)
    (ht : t.length ≤ 5) (hn : n < 32) (hv : binValue t = some n) :
    exec (.bin2dec t) s = .next (s.withResponse (some (.ok (.int n)))) := by
  have hw : within s.inst (.bin2dec t) = true := by
    simp [within, holdsStr_of_legal hl ht, hv, holdsInt_of_legal hl hn]
  rw [exec_of_within hl hw]
  simp [afterOp, regsAfter, outcomeOf, hv]

/-- `BIN2DEC` of a valid adder operand is its vector's value (R72). -/
theorem exec_bin2dec_of_vec4 {s : State} {t : Str} {v : Vec4} (hl : s.inst.legal = true)
    (ht : vec4 t = some v) : exec (.bin2dec t) s = .next (s.withResponse (some (.ok (.int v.toNat)))) := by
  obtain rfl := vec4_eq_some.1 ht
  exact exec_bin2dec_of_binValue hl (by simp [str4_length]) (by omega) (binValue_str4 v)

/-! ### The loop unrolled (R71) -/

theorem rcaLoop_vecOf (a0 a1 a2 a3 b0 b1 b2 b3 : Bit) :
    let k2 := rcaCarryBit a3 b3 false
    let k1 := rcaCarryBit a2 b2 k2
    let k0 := rcaCarryBit a1 b1 k1
    rcaLoop (vecOf a0 a1 a2 a3) (vecOf b0 b1 b2 b3)
      = (rcaCarryBit a0 b0 k0,
          [rcaSumBit a0 b0 k0, rcaSumBit a1 b1 k1, rcaSumBit a2 b2 k2, rcaSumBit a3 b3 false]) := by
  simp [rcaLoop, rcaRound]

/-- The least significant position has no carry-in (R74). -/
theorem rcaCarryBit_false (x y : Bit) : rcaCarryBit x y false = (x && y) := by simp [rcaCarryBit]

theorem rcaSumBit_false (x y : Bit) : rcaSumBit x y false = (x ^^ y) := by simp [rcaSumBit]

/-! ### The result as a numeral (R72) -/

/-- R72 by the final carry: four characters of the sum's value, or a '1' in front of four for what is
left over 16. -/
theorem rcaResult_cases (a b : Vec4) :
    (∃ S, rcaResult a b = str4 S ∧ a.toNat + b.toNat = S.toNat)
    ∨ (∃ S, rcaResult a b = '1' :: str4 S ∧ a.toNat + b.toNat = 16 + S.toNat) := by
  obtain ⟨K, S, hr, hsum⟩ := rcaResult_spec a b
  cases K with
  | false => exact .inl ⟨S, hr, by simpa using hsum.symm⟩
  | true => exact .inr ⟨S, hr, by simpa using hsum.symm⟩

/-- A '1' in front of a numeral adds the weight of its position (R88). -/
theorem binValue_one_cons {t : Str} {n : Nat} (h : binValue t = some n) :
    binValue ('1' :: t) = some (2 ^ t.length + n) := by
  obtain ⟨-, ds, hds, rfl⟩ := binValue_eq_some.1 h
  have hone : bitDigit '1' = some 1 := bitDigit_bit2chr true
  refine binValue_eq_some.2 ⟨by simp, 1 :: ds, by simp [digitList, hone, hds], ?_⟩
  rw [positional_cons, digitList_length hds, one_mul]

theorem binValue_one_cons_str4 (S : Vec4) : binValue ('1' :: str4 S) = some (16 + S.toNat) :=
  binValue_one_cons (binValue_str4 S)

/-- The RCA result read as a base-2 numeral is the exact sum (R72). -/
theorem binValue_rcaResult (a b : Vec4) : binValue (rcaResult a b) = some (a.toNat + b.toNat) := by
  rcases rcaResult_cases a b with ⟨S, hr, hsum⟩ | ⟨S, hr, hsum⟩
  · rw [hr, hsum, binValue_str4]
  · rw [hr, hsum, binValue_one_cons_str4]

/-- The result has 4 characters for sums below 16, and else 5 with a leading '1'. -/
theorem rcaResult_shape (a b : Vec4) :
    ((rcaResult a b).length = 4 ∧ a.toNat + b.toNat < 16)
    ∨ ((rcaResult a b).length = 5 ∧ (rcaResult a b).head? = some '1' ∧ 16 ≤ a.toNat + b.toNat) := by
  rcases rcaResult_cases a b with ⟨S, hr, hsum⟩ | ⟨S, hr, hsum⟩
  · exact .inl ⟨by rw [hr, str4_length], by omega⟩
  · exact .inr ⟨by rw [hr, List.length_cons, str4_length], by rw [hr, List.head?_cons], by omega⟩

theorem pad4_of_four_le {t : Str} (h : 4 ≤ t.length) : pad4 t = t := by
  simp [pad4, Nat.sub_eq_zero_of_le h]

theorem pad4_minbin_toNat (S : Vec4) : pad4 (minbin S.toNat) = str4 S := by
  revert S; decide

/-- From 16 on the numeral needs no padding, and its leading '1' makes it the only one (R90). -/
theorem minbin_sixteen_add (S : Vec4) : minbin (16 + S.toNat) = '1' :: str4 S :=
  binValue_unique (binValue_minbin _) (binValue_one_cons_str4 S) (minbin_head (by omega)) rfl

theorem rcaResult_eq_pad4_minbin (a b : Vec4) : rcaResult a b = pad4 (minbin (a.toNat + b.toNat)) := by
  rcases rcaResult_cases a b with ⟨S, hr, hsum⟩ | ⟨S, hr, hsum⟩
  · rw [hr, hsum, pad4_minbin_toNat]
  · rw [hr, hsum, minbin_sixteen_add, pad4_of_four_le (by simp [str4_length])]

/-! ### The statements -/

/-- R70's encoding: select 000 takes both string ports. -/
theorem decode_of_op_zero {c : Command} (h : c.op = 0b000) : decode c = .op (.rcaAdd c.s1 c.s2) := by
  simp [decode, h]

/-- Settles O19: the decoder's first row, the exception's frame, and the loop unrolled on the operands'
bits. -/
theorem rcaAddMeaning : Obligations.RcaAddMeaning := by
  refine ⟨fun c hop => decode_of_op_zero hop, fun s a b ha hb hv => ⟨?invalid, rfl⟩, ?valid⟩
  case invalid =>
    have hr : raises (.rcaAdd a b) = true := by
      simpa [raises, ← Bool.not_and] using hv
    exact exec_of_raises (by simp [within, ha, hb]) hr
  case valid =>
    intro s a0 a1 a2 a3 b0 b1 b2 b3 hl
    rw [exec_rcaAdd_of_vec4 hl (vec4_operand ..) (vec4_operand ..), rcaResult, rcaLoop_vecOf]
    simp only [rcaCarryBit_false, rcaSumBit_false]
    rfl

/-- Settles O20: the loop's final carry and sum vector are those of `rcaResult_spec`, and the result's
numeral, length and value follow from the sum. -/
theorem rcaAddIsExactSum : Obligations.RcaAddIsExactSum := by
  intro s a b va vb hl ha hb
  obtain ⟨K, S, hr, hsum⟩ := rcaResult_spec va vb
  have hsumBin := exec_bin2dec_of_binValue (s := s) hl (rcaResult_length_le va vb) (by omega)
    (binValue_rcaResult va vb)
  refine ⟨K, S, rcaResult va vb, exec_rcaAdd_of_vec4 hl ha hb, hr, hsum, rcaResult_eq_pad4_minbin va vb,
    ?lengthIff, ?leading, ?four,
    va.toNat, vb.toNat, exec_bin2dec_of_vec4 hl ha, exec_bin2dec_of_vec4 hl hb, hsumBin⟩
  case lengthIff =>
    rcases rcaResult_shape va vb with ⟨hlen, hlt⟩ | ⟨hlen, -, hge⟩ <;> omega
  case leading =>
    rcases rcaResult_shape va vb with ⟨hlen, -⟩ | ⟨-, hhead, -⟩
    · omega
    · exact fun _ => hhead
  case four =>
    rcases rcaResult_shape va vb with ⟨hlen, -⟩ | ⟨hlen, -⟩ <;> omega

end Sys2Proof.Machine
end

section
/-! PROOFS. The carry-look-ahead adder (41_carry_lookahead_adder.md R77): what `CLA_COMPUTE` answers,
and its three register equations position by position. -/

namespace Sys2Proof.Machine

/-- R77's encoding: select 010 takes no operand port. -/
theorem decode_of_op_two {c : Command} (h : c.op = 0b010) : decode c = .op .claCompute := by
  simp [decode, h]

/-- `CLA_COMPUTE` has no precondition and its `Ok()` fits every instance, so it answers from every
state, a state with an illegal instance included. -/
theorem exec_claCompute (s : State) :
    exec .claCompute s = .next ((s.withCla s.cla.storeSignals).withResponse (some (.ok .unit))) :=
  deliver_unit (s.withCla s.cla.storeSignals)

/-! ### The equations at an index -/

theorem claPropagate_getMsbD (a b : Vec4) (i : Nat) :
    (claPropagate a b).getMsbD i = (a.getMsbD i ^^ b.getMsbD i) := by
  rw [claPropagate_eq, BitVec.getMsbD_xor]

theorem claGenerate_getMsbD (a b : Vec4) (i : Nat) :
    (claGenerate a b).getMsbD i = (a.getMsbD i && b.getMsbD i) := by
  rw [claGenerate_eq, BitVec.getMsbD_and]

/-- Past the vector's end there is no bit to complement, hence the bound on the index. -/
theorem claSum_getMsbD (p : Vec4) (cin : Bit) {i : Nat} (h : i < 4) :
    (claSum p cin).getMsbD i = (p.getMsbD i ^^ cin) := by
  rw [claSum_eq]
  cases cin with
  | false => simp
  | true => simp [h]

/-! ### The statement -/

/-- Settles O24: the decoder's third row, and the state `CLA_COMPUTE` leaves. `storeSignals` computes
`Sum` and `Cout` from the very `P` and `G` it writes. -/
theorem claComputeMeaning : Obligations.ClaComputeMeaning := by
  refine ⟨fun c hop => decode_of_op_two hop, fun s => ⟨_, exec_claCompute s, ?propagate, ?generate, ?sum,
    ?carryOut, rfl, rfl, rfl, rfl, rfl, rfl⟩⟩
  case propagate => exact fun i _ => claPropagate_getMsbD s.cla.A s.cla.B i
  case generate => exact fun i _ => claGenerate_getMsbD s.cla.A s.cla.B i
  case sum => exact fun i hi => claSum_getMsbD (claPropagate s.cla.A s.cla.B) s.cla.Cin hi
  case carryOut => rfl

end Sys2Proof.Machine
end

section
/-! PROOFS. The converter's `BIN2DEC` (42_binary_decimal_converter.md R88) and R93's equation between it
and the ripple-carry adder. -/

namespace Sys2Proof.Machine

/-! ### Base-2 numerals and their values -/

/-- R88's precondition in the spec's words. -/
theorem binaryNumeral_iff {t : Str} : binaryNumeral t = true ↔ t ≠ [] ∧ ∀ c ∈ t, c = '0' ∨ c = '1' := by
  simp only [binaryNumeral, Bool.and_eq_true, List.all_eq_true, chr2bit_isSome, Bool.not_eq_true',
    List.isEmpty_eq_false_iff]

/-- The value of a base-2 numeral is the sum over its positions (R88). -/
theorem weightedSum_of_binValue {t : Str} {n : Nat} (h : binValue t = some n) : weightedSum 2 t = n := by
  obtain ⟨-, ds, hds, rfl⟩ := binValue_eq_some.1 h
  exact weightedSum_eq (fun _ _ hd => (bitDigit_eq hd).2) hds

/-- A string that meets R88's precondition has the sum over its positions as its value. -/
theorem binValue_of_binaryNumeral {t : Str} (h : binaryNumeral t = true) :
    binValue t = some (weightedSum 2 t) := by
  rw [← binValue_isSome, Option.isSome_iff_exists] at h
  obtain ⟨n, hn⟩ := h
  rw [hn, weightedSum_of_binValue hn]

/-- A string that fails R88's precondition has no value. -/
theorem binValue_of_not_binaryNumeral {t : Str} (h : binaryNumeral t = false) : binValue t = none := by
  rwa [← binValue_isSome, Option.isSome_eq_false_iff, Option.isNone_iff_eq_none] at h

/-! ### What `BIN2DEC` answers -/

/-- R88's encoding: select 100 takes the first string port alone. -/
theorem decode_of_op_four {c : Command} (h : c.op = 0b100) : decode c = .op (.bin2dec c.s1) := by
  simp [decode, h]

/-- R88's success case on any instance, legal or not, that holds the operand and its value (R94). -/
theorem exec_bin2dec_of_holds {s : State} {t : Str} {n : Nat} (ht : holdsStr s.inst t = true)
    (hn : holdsInt s.inst n = true) (hv : binValue t = some n) :
    exec (.bin2dec t) s = .next (s.withResponse (some (.ok (.int n)))) := by
  have hts : ([t] : List Str).all (holdsStr s.inst) = true := by simpa using ht
  calc exec (.bin2dec t) s
      = deliver (.int n) s := by rw [exec, execBin2Dec, withOperands_eq _ hts, hv]
    _ = .next (s.withResponse (some (.ok (.int n)))) := deliver_eq hn

/-- R88's failing case: there is no value to hold, so the operand's capacity is enough. -/
theorem exec_bin2dec_of_not_binaryNumeral {s : State} {t : Str} (ht : holdsStr s.inst t = true)
    (hb : binaryNumeral t = false) :
    exec (.bin2dec t) s = .next (s.withResponse (some .invalidInput)) := by
  have hw : within s.inst (.bin2dec t) = true := by simp [within, ht, binValue_of_not_binaryNumeral hb]
  exact exec_of_raises hw (by simp [raises, hb])

/-! ### The statements -/

/-- Settles O35: the decoder's fifth row, the exception on a string that is no base-2 numeral, and the
numeral's value as the sum over its positions. -/
theorem bin2DecMeaning : Obligations.Bin2DecMeaning := by
  refine ⟨fun c hop => decode_of_op_four hop, ?invalid, ?valid⟩
  case invalid =>
    intro s t ht hbad
    have hb : ¬ binaryNumeral t = true := by
      rw [binaryNumeral_iff]
      rintro ⟨hne, hall⟩
      rcases hbad with hnil | ⟨c, hc, h0, h1⟩
      · exact hne hnil
      · exact (hall c hc).elim h0 h1
    exact exec_bin2dec_of_not_binaryNumeral ht (Bool.eq_false_iff.2 hb)
  case valid =>
    intro s t ht hne hall hn
    exact exec_bin2dec_of_holds ht hn (binValue_of_binaryNumeral (binaryNumeral_iff.2 ⟨hne, hall⟩))

/-- Settles O22: valid operands are the strings of two vectors, whose values `BIN2DEC` answers, and the
loop's result is the padded numeral of the sum of the two. -/
theorem rcaAddIsPaddedNumeralOfSum : Obligations.RcaAddIsPaddedNumeralOfSum := by
  intro s a b hl ha hb
  obtain ⟨va, hva⟩ := vec4_of_valid4 ha
  obtain ⟨vb, hvb⟩ := vec4_of_valid4 hb
  have hrca := exec_rcaAdd_of_vec4 (s := s) hl hva hvb
  rw [rcaResult_eq_pad4_minbin] at hrca
  exact ⟨va.toNat, vb.toNat, exec_bin2dec_of_vec4 hl hva, exec_bin2dec_of_vec4 hl hvb, hrca⟩

end Sys2Proof.Machine
end

section
/-! PROOFS. Commands and operations (30_encoding.md R50 to R53, R58, R68): the decoder row by row, the
encoder's ports, and that each direction undoes the other. -/

namespace Sys2Proof.Machine

/-! ### The decoder's rows (R58, R68) -/

theorem decode_of_op_one {c : Command} (h : c.op = 0b001) : decode c = .op (.claSet c.s1 c.s2 c.cin) := by
  simp [decode, h]

theorem decode_of_op_three {c : Command} (h : c.op = 0b011) : decode c = .op .claGet := by
  simp [decode, h]

theorem decode_of_op_five {c : Command} (h : c.op = 0b101) : decode c = .op (.dec2bin c.s1) := by
  simp [decode, h]

/-- A select is one of the table's six, or reserved (R58, R59). -/
theorem op_cases (op : BitVec 3) :
    op = 0b000 ∨ op = 0b001 ∨ op = 0b010 ∨ op = 0b011 ∨ op = 0b100 ∨ op = 0b101 ∨ 6 ≤ op.toNat := by
  revert op; decide

theorem decode_of_six_le {c : Command} (h : 6 ≤ c.op.toNat) : decode c = .reserved c.op := by
  have hlt := c.op.isLt
  rcases (by omega : c.op.toNat = 6 ∨ c.op.toNat = 7) with h' | h' <;> simp [decode, h']

/-- Everything that decoding to an operation can mean: the operation's own select, and the fields of
its format (R50, R58). -/
theorem decode_eq_op {c : Command} {i : Instr} (h : decode c = .op i) :
    (c.op = 0b000 ∧ i = .rcaAdd c.s1 c.s2) ∨ (c.op = 0b001 ∧ i = .claSet c.s1 c.s2 c.cin)
    ∨ (c.op = 0b010 ∧ i = .claCompute) ∨ (c.op = 0b011 ∧ i = .claGet)
    ∨ (c.op = 0b100 ∧ i = .bin2dec c.s1) ∨ (c.op = 0b101 ∧ i = .dec2bin c.s1) := by
  rcases op_cases c.op with hop | hop | hop | hop | hop | hop | hop
  · rw [decode_of_op_zero hop] at h; cases h; simp [hop]
  · rw [decode_of_op_one hop] at h; cases h; simp [hop]
  · rw [decode_of_op_two hop] at h; cases h; simp [hop]
  · rw [decode_of_op_three hop] at h; cases h; simp [hop]
  · rw [decode_of_op_four hop] at h; cases h; simp [hop]
  · rw [decode_of_op_five hop] at h; cases h; simp [hop]
  · rw [decode_of_six_le hop] at h; cases h

/-- The decoder reads the fields of the select's format alone (R60). -/
theorem decode_congr {c c' : Command} (hop : c'.op = c.op)
    (h1 : c.op ≠ 0b010 → c.op ≠ 0b011 → c'.s1 = c.s1)
    (h2 : c.op = 0b000 ∨ c.op = 0b001 → c'.s2 = c.s2) (h3 : c.op = 0b001 → c'.cin = c.cin) :
    decode c = decode c' := by
  rcases op_cases c.op with h | h | h | h | h | h | h
  · rw [decode_of_op_zero h, decode_of_op_zero (hop.trans h), h1 (by simp [h]) (by simp [h]), h2 (.inl h)]
  · rw [decode_of_op_one h, decode_of_op_one (hop.trans h), h1 (by simp [h]) (by simp [h]), h2 (.inr h),
      h3 h]
  · rw [decode_of_op_two h, decode_of_op_two (hop.trans h)]
  · rw [decode_of_op_three h, decode_of_op_three (hop.trans h)]
  · rw [decode_of_op_four h, decode_of_op_four (hop.trans h), h1 (by simp [h]) (by simp [h])]
  · rw [decode_of_op_five h, decode_of_op_five (hop.trans h), h1 (by simp [h]) (by simp [h])]
  · rw [decode_of_six_le h, decode_of_six_le (hop ▸ h), hop]

/-! ### A command's ports carry the encoder's operands (R53) -/

theorem commandOf_s1 (op : BitVec 3) {a : Str} (b : Str) (cin : Bit) (ha : Str.hasCodes a = true) :
    (commandOf op a b cin).s1 = a :=
  strOfBus_busOfStr ha

theorem commandOf_s2 (op : BitVec 3) (a : Str) {b : Str} (cin : Bit) (hb : Str.hasCodes b = true) :
    (commandOf op a b cin).s2 = b :=
  strOfBus_busOfStr hb

theorem s1_hasCodes (c : Command) : Str.hasCodes c.s1 = true := strOfBus_hasCodes _ _

theorem s2_hasCodes (c : Command) : Str.hasCodes c.s2 = true := strOfBus_hasCodes _ _

/-- The round trip in one equation: an operation comes back from its own command. -/
theorem decode_encode {i : Instr} (hw : WellFormed i) : decode (encode i) = .op i := by
  cases i with
  | rcaAdd a b =>
    obtain ⟨ha, hb⟩ : Str.hasCodes a = true ∧ Str.hasCodes b = true := by
      simpa [WellFormed, Instr.wf] using hw
    rw [encode, decode_of_op_zero rfl, commandOf_s1 _ _ _ ha, commandOf_s2 _ _ _ hb]
  | claSet a b cin =>
    obtain ⟨ha, hb⟩ : Str.hasCodes a = true ∧ Str.hasCodes b = true := by
      simpa [WellFormed, Instr.wf] using hw
    rw [encode, decode_of_op_one rfl, commandOf_s1 _ _ _ ha, commandOf_s2 _ _ _ hb]
    rfl
  | claCompute => exact decode_of_op_two rfl
  | claGet => exact decode_of_op_three rfl
  | bin2dec t => rw [encode, decode_of_op_four rfl, commandOf_s1 _ _ _ hw]
  | dec2bin t => rw [encode, decode_of_op_five rfl, commandOf_s1 _ _ _ hw]

/-- Only operations with port codes come out of the decoder (R52). -/
theorem wellFormed_of_decode {c : Command} {i : Instr} (h : decode c = .op i) : WellFormed i := by
  rcases decode_eq_op h with ⟨-, rfl⟩ | ⟨-, rfl⟩ | ⟨-, rfl⟩ | ⟨-, rfl⟩ | ⟨-, rfl⟩ | ⟨-, rfl⟩ <;>
    simp [WellFormed, Instr.wf, s1_hasCodes, s2_hasCodes]

/-- A port with zeros above its string is the port of that string (R53). -/
theorem port_of_strOfBus {len bus : Nat} (h : bus < 256 ^ len) :
    (strOfBus len bus).length = len ∧ busOfStr (strOfBus len bus) = bus :=
  ⟨strOfBus_length len bus, busOfStr_strOfBus len bus h⟩

/-! ### A bus position by position (R53) -/

theorem strOfBus_getElem? (len bus : Nat) {j : Nat} (hj : j < len) :
    (strOfBus len bus)[j]? = some (chrOfCode (bus / 256 ^ j)) := by
  induction len generalizing bus j with
  | zero => omega
  | succ len ih =>
    cases j with
    | zero => simp [strOfBus]
    | succ j =>
      rw [strOfBus, List.getElem?_cons_succ, ih _ (by omega), Nat.div_div_eq_div_mul, ← pow_succ']

/-- What stands above a string on its bus is ignored. -/
theorem strOfBus_add_mul (len bus extra : Nat) :
    strOfBus len (bus + 256 ^ len * extra) = strOfBus len bus := by
  induction len generalizing bus with
  | zero => rfl
  | succ len ih =>
    have hmul : 256 ^ (len + 1) * extra = 256 * (256 ^ len * extra) := by ring
    have hdiv : (bus + 256 * (256 ^ len * extra)) / 256 = bus / 256 + 256 ^ len * extra := by omega
    rw [strOfBus, strOfBus, hmul, chrOfCode_add_mul, hdiv, ih]

/-! ### Port widths (R51) -/

/-- Operands that an instance holds make a command that fits its ports. -/
theorem commandOf_onPorts {inst : Instance} (op : BitVec 3) {a b : Str} (cin : Bit)
    (ha : holdsStr inst a = true) (hb : holdsStr inst b = true) :
    (commandOf op a b cin).onPorts inst = true := by
  cases inst with
  | unbounded => rfl
  | bounded strMax vw =>
    have ha' : a.length ≤ strMax := by simpa [holdsStr] using ha
    have hb' : b.length ≤ strMax := by simpa [holdsStr] using hb
    simp [Command.onPorts, commandOf, lt_two_pow_lenWidth ha', lt_two_pow_lenWidth hb',
      busOfStr_fits ha', busOfStr_fits hb']

theorem holdsStr_nil (inst : Instance) : holdsStr inst [] = true := by cases inst <;> simp [holdsStr]

/-! ### The statements -/

/-- Settles O5: the encoder's operands come back from the ports. -/
theorem decodeOfEncode : Obligations.DecodeOfEncode := fun _ hw => decode_encode hw

/-- Settles O6, by the row that the command decodes by: its format's ports hold the strings decoded. -/
theorem encodeOfDecode : Obligations.EncodeOfDecode := by
  intro c i h
  refine ⟨wellFormed_of_decode h, ?_⟩
  rcases decode_eq_op h with ⟨hop, rfl⟩ | ⟨hop, rfl⟩ | ⟨hop, rfl⟩ | ⟨hop, rfl⟩ | ⟨hop, rfl⟩ |
    ⟨hop, rfl⟩
  · exact ⟨hop.symm, fun _ _ => port_of_strOfBus, fun _ => port_of_strOfBus, by simp [hop]⟩
  · exact ⟨hop.symm, fun _ _ => port_of_strOfBus, fun _ => port_of_strOfBus, fun _ => rfl⟩
  · exact ⟨hop.symm, by simp [hop], by simp [hop], by simp [hop]⟩
  · exact ⟨hop.symm, by simp [hop], by simp [hop], by simp [hop]⟩
  · exact ⟨hop.symm, fun _ _ => port_of_strOfBus, by simp [hop], by simp [hop]⟩
  · exact ⟨hop.symm, fun _ _ => port_of_strOfBus, by simp [hop], by simp [hop]⟩

/-- Settles O4: `chrOfCode` takes the low byte of what is left of the bus after `j` characters. -/
theorem busCarriesCharactersLowFirst : Obligations.BusCarriesCharactersLowFirst :=
  fun len bus extra =>
    ⟨strOfBus_length len bus, fun _ hj => strOfBus_getElem? len bus hj, strOfBus_add_mul len bus extra⟩

/-- Settles O7: capacity bounds the operands of each format, and unused ports carry the empty string. -/
theorem encodedCommandFitsPorts : Obligations.EncodedCommandFitsPorts := by
  intro inst i h
  cases i with
  | rcaAdd a b =>
    obtain ⟨ha, hb⟩ : holdsStr inst a = true ∧ holdsStr inst b = true := by simpa [within] using h
    exact commandOf_onPorts _ _ ha hb
  | claSet a b cin =>
    obtain ⟨ha, hb⟩ : holdsStr inst a = true ∧ holdsStr inst b = true := by simpa [within] using h
    exact commandOf_onPorts _ _ ha hb
  | claCompute => exact commandOf_onPorts _ _ (holdsStr_nil inst) (holdsStr_nil inst)
  | claGet => exact commandOf_onPorts _ _ (holdsStr_nil inst) (holdsStr_nil inst)
  | bin2dec t =>
    simp only [within, Bool.and_eq_true] at h
    exact commandOf_onPorts _ _ h.1 (holdsStr_nil inst)
  | dec2bin t =>
    simp only [within, Bool.and_eq_true] at h
    exact commandOf_onPorts _ _ h.1 (holdsStr_nil inst)

/-- Settles O3: the six rows, and everything above them. -/
theorem onlyReservedSelectsAreRejected : Obligations.OnlyReservedSelectsAreRejected := by
  refine fun c => ⟨fun hle => ?_, decode_of_six_le⟩
  rcases op_cases c.op with hop | hop | hop | hop | hop | hop | hop
  · exact ⟨_, decode_of_op_zero hop, hop.symm⟩
  · exact ⟨_, decode_of_op_one hop, hop.symm⟩
  · exact ⟨_, decode_of_op_two hop, hop.symm⟩
  · exact ⟨_, decode_of_op_three hop, hop.symm⟩
  · exact ⟨_, decode_of_op_four hop, hop.symm⟩
  · exact ⟨_, decode_of_op_five hop, hop.symm⟩
  · omega

/-- Settles O2: six rows and two reserved selects, each evaluated. -/
theorem printedCommandsDecode : Obligations.PrintedCommandsDecode :=
  ⟨by decide, by decide, by decide, by decide, by decide, by decide, by decide, by decide⟩

end Sys2Proof.Machine
end

section
/-! PROOFS. Operations under the exception and capacity (60_exceptions.md R97 to R104,
42_binary_decimal_converter.md R94): when an operation ends in the error, what it then leaves, and
when it has no step. -/

namespace Sys2Proof.Machine

/-! ### Operations that raise the exception -/

/-- R99, R100: the only state an operation that raises the exception can answer. -/
theorem exec_next_of_raises {i : Instr} {s t : State} (hr : raises i = true) (h : exec i s = .next t) :
    t = s.withResponse (some .invalidInput) := by
  rw [exec_of_raises (within_of_exec_next h).1 hr] at h
  cases h
  rfl

/-- Within capacity, the error with nothing else changed is the answer exactly under R98's conditions. -/
theorem exec_eq_invalidInput_iff {i : Instr} {s : State} (hw : within s.inst i = true) :
    exec i s = .next (s.withResponse (some .invalidInput)) ↔ raises i = true := by
  refine ⟨fun h => ?_, exec_of_raises hw⟩
  have hresp := congrArg State.response (exec_next h)
  simp only [State.withResponse_response, afterOp_response, Option.some.injEq] at hresp
  exact (outcomeOf_eq_invalidInput i s.cla).1 hresp.symm

/-! ### The conditions of R98's table -/

theorem raises_rcaAdd_iff {a b : Str} :
    raises (.rcaAdd a b) = true ↔ ¬(valid4 a = true ∧ valid4 b = true) := by
  simp [raises, ← Bool.not_and]

theorem raises_claSet_iff {a b : Str} {cin : Bit} :
    raises (.claSet a b cin) = true ↔ ¬(valid4 a = true ∧ valid4 b = true) := by
  simp [raises, ← Bool.not_and]

theorem raises_bin2dec_iff {t : Str} :
    raises (.bin2dec t) = true ↔ t = [] ∨ ∃ c ∈ t, c ≠ '0' ∧ c ≠ '1' := by
  have h : raises (.bin2dec t) = true ↔ ¬ binaryNumeral t = true := by simp [raises]
  rw [h, binaryNumeral_iff, not_and_or, not_not]
  simp only [not_forall, not_or, exists_prop]

/-- R91's predicate in codes: not empty, and every code is that of a digit. -/
theorem decimalNumeral_iff {t : Str} :
    decimalNumeral t = true ↔ t ≠ [] ∧ ∀ c ∈ t, 0x30 ≤ c.toNat ∧ c.toNat ≤ 0x39 := by
  simp only [decimalNumeral, Bool.and_eq_true, List.all_eq_true, digit_isSome, Bool.not_eq_true',
    List.isEmpty_eq_false_iff]

theorem raises_dec2bin_iff {t : Str} :
    raises (.dec2bin t) = true ↔ t = [] ∨ ∃ c ∈ t, c.toNat < 0x30 ∨ 0x39 < c.toNat := by
  have h : raises (.dec2bin t) = true ↔ ¬ decimalNumeral t = true := by simp [raises]
  rw [h, decimalNumeral_iff, not_and_or, not_not]
  simp only [not_forall, not_and_or, Nat.not_le, exists_prop]

/-- An adder operand has a cause exactly when it is not valid (R97, R98). -/
theorem adderCauses_eq_nil {t : Str} : adderCauses t = [] ↔ valid4 t = true := by
  simp [adderCauses, valid4, Option.isSome_iff_ne_none]

/-- The two columns of R98's table agree: an operation raises the exception under some cause class. -/
theorem causes_ne_nil_iff (i : Instr) : raises i = true ↔ causes i ≠ [] := by
  cases i with
  | rcaAdd a b =>
    rw [raises_rcaAdd_iff, causes, Ne, List.append_eq_nil_iff, adderCauses_eq_nil, adderCauses_eq_nil]
  | claSet a b cin =>
    rw [raises_claSet_iff, causes, Ne, List.append_eq_nil_iff, adderCauses_eq_nil, adderCauses_eq_nil]
  | claCompute => simp [raises, causes]
  | claGet => simp [raises, causes]
  | bin2dec t =>
    simp only [raises, causes, binaryNumeral]
    cases t.isEmpty <;> cases t.all (fun c => (chr2bit c).isSome) <;> simp
  | dec2bin t => simp [raises, causes]

/-! ### Valid adder operands (R97) -/

theorem isBinary_iff {t : Str} : isBinary t = true ↔ ∀ c ∈ t, c = '0' ∨ c = '1' := by
  simp only [isBinary, List.all_eq_true, chr2bit_isSome]

theorem valid4_iff_isBinary {t : Str} : valid4 t = true ↔ t.length = 4 ∧ isBinary t = true := by
  simp only [valid4, isBinary, Bool.and_eq_true, decide_eq_true_eq]

theorem valid4_iff_operand {t : Str} :
    valid4 t = true ↔ ∃ b0 b1 b2 b3 : Bit, t = operand b0 b1 b2 b3 := by
  rw [valid4_iff]
  constructor
  · rintro ⟨v, rfl⟩; exact ⟨_, _, _, _, str4_eq_operand v⟩
  · rintro ⟨b0, b1, b2, b3, rfl⟩; exact ⟨vecOf b0 b1 b2 b3, (str4_vecOf ..).symm⟩

theorem str4_injective : Function.Injective str4 := fun v w h => by
  simpa [vec4_eq_some.2 rfl] using congrArg vec4 h

/-- The strings of the 16 vectors. -/
def operandStrings : List Str := (List.finRange 16).map (fun k => str4 (BitVec.ofFin k))

theorem operandStrings_length : operandStrings.length = 16 := by simp [operandStrings]

theorem operandStrings_nodup : operandStrings.Nodup :=
  (List.nodup_finRange 16).map fun _ _ h => by simpa using str4_injective h

theorem valid4_iff_mem_operandStrings {t : Str} : valid4 t = true ↔ t ∈ operandStrings := by
  rw [valid4_iff, operandStrings, List.mem_map]
  constructor
  · rintro ⟨v, rfl⟩; exact ⟨v.toFin, List.mem_finRange _, rfl⟩
  · rintro ⟨k, -, rfl⟩; exact ⟨_, rfl⟩

/-! ### Capacity (R94) -/

theorem within_unbounded (i : Instr) : within .unbounded i = true := by
  cases i <;> simp [within, Option.all_eq_true]

/-! ### The statements -/

/-- Settles O13: `valid4` by its definition, as a list of 16, by the vectors' bits, and as the condition
of both adders' rows in R98's table. -/
theorem validAdderOperands : Obligations.ValidAdderOperands := by
  refine ⟨fun t => ?predicate, ⟨operandStrings, operandStrings_length, operandStrings_nodup,
    fun _ => valid4_iff_mem_operandStrings⟩, fun _ => valid4_iff_operand, fun s a b cin ha hb => ?adders⟩
  case predicate => rw [valid4_iff_isBinary, isBinary_iff]
  case adders =>
    exact ⟨(exec_eq_invalidInput_iff (by simp [within, ha, hb])).trans raises_rcaAdd_iff,
      (exec_eq_invalidInput_iff (by simp [within, ha, hb])).trans raises_claSet_iff⟩

/-- Settles O14: an operation within capacity whose row of R98's table raises can answer nothing else. -/
theorem invalidInputChangesNothing : Obligations.InvalidInputChangesNothing :=
  fun _ _ => exec_of_raises

/-- Settles O15: a legal instance answers the outcome of R98's table, and the table's rows in the spec's
words. -/
theorem invalidInputExactlyWhen : Obligations.InvalidInputExactlyWhen := by
  refine ⟨fun i s hl hw => ?_, causes_ne_nil_iff, fun _ => raises_bin2dec_iff, fun _ => raises_dec2bin_iff,
    rfl, rfl⟩
  rw [exec_of_within hl hw, ← outcomeOf_eq_invalidInput i s.cla]
  constructor
  · rintro ⟨_, ⟨⟩, hresp⟩
    exact Option.some.inj hresp
  · exact fun h => ⟨_, rfl, congrArg some h⟩

/-- Settles O16: a failed operation changes the answer alone, and no operation reads that. -/
theorem errorIsNotLatched : Obligations.ErrorIsNotLatched := by
  intro i j s t hr h
  rw [exec_next_of_raises hr h, exec_withResponse]

/-- Settles O17: `afterOp` is the state, and `outcomeOf` the outcome, that a legal instance answers. -/
theorem everyOperationEndsInAnOutcome : Obligations.EveryOperationEndsInAnOutcome :=
  ⟨fun i s hl hw => ⟨afterOp i s, outcomeOf i s.cla, exec_of_within hl hw, rfl, rfl, rfl⟩,
    within_unbounded⟩

/-- Settles O18: an operation that answers a next state is within capacity, so only the refusal is left. -/
theorem outsideCapacityIsRefused : Obligations.OutsideCapacityIsRefused := by
  intro i s hw
  rcases exec_cases i s with ⟨-, hw', -⟩ | ⟨h, -⟩
  · simp [hw] at hw'
  · exact h

end Sys2Proof.Machine
end

section
/-! PROOFS. What operations change and leave alone (10_state.md R19, R33; 70_reset_and_hazards.md R119):
the registers and the outcome after each kind of operation, and R33's equations. -/

namespace Sys2Proof.Machine

/-! ### The registers after an operation -/

/-- Adder operands that raise nothing are the strings of two vectors (R97). -/
theorem exists_vec4_of_valid {a b : Str} (h : (!valid4 a || !valid4 b) = false) :
    ∃ va vb, vec4 a = some va ∧ vec4 b = some vb := by
  obtain ⟨ha, hb⟩ : valid4 a = true ∧ valid4 b = true := by simpa using h
  obtain ⟨va, hva⟩ := vec4_of_valid4 ha
  obtain ⟨vb, hvb⟩ := vec4_of_valid4 hb
  exact ⟨va, vb, hva, hvb⟩

/-- R76, R34: `CLA_SET` either fails and leaves every register, or stores two vectors. -/
theorem regsAfter_claSet_cases (a b : Str) (cin : Bit) (r : ClaRegs) :
    (raises (.claSet a b cin) = true ∧ regsAfter (.claSet a b cin) r = r)
    ∨ ∃ va vb, vec4 a = some va ∧ vec4 b = some vb
        ∧ regsAfter (.claSet a b cin) r = r.storeOperands va vb cin := by
  cases hr : raises (.claSet a b cin) with
  | true => exact .inl ⟨rfl, regsAfter_of_raises hr r⟩
  | false =>
    obtain ⟨va, vb, hva, hvb⟩ := exists_vec4_of_valid hr
    exact .inr ⟨va, vb, hva, hvb, by simp [regsAfter, hva, hvb]⟩

/-- Everything that an operation can do to the registers (R19). -/
theorem regsAfter_cases (i : Instr) (r : ClaRegs) :
    regsAfter i r = r ∨ regsAfter i r = r.storeSignals
    ∨ ∃ a b cin va vb, i = .claSet a b cin ∧ regsAfter i r = r.storeOperands va vb cin := by
  cases i with
  | claSet a b cin =>
    rcases regsAfter_claSet_cases a b cin r with ⟨-, h⟩ | ⟨va, vb, -, -, h⟩
    · exact .inl h
    · exact .inr (.inr ⟨a, b, cin, va, vb, rfl, h⟩)
  | claCompute => exact .inr (.inl rfl)
  | rcaAdd a b => exact .inl rfl
  | claGet => exact .inl rfl
  | bin2dec t => exact .inl rfl
  | dec2bin t => exact .inl rfl

/-- The state after an operation that leaves every register differs in the answer alone. -/
theorem afterOp_of_regsAfter_eq {i : Instr} {s : State} (h : regsAfter i s.cla = s.cla) :
    afterOp i s = s.withResponse (some (outcomeOf i s.cla)) := by
  rw [afterOp, h, State.withCla_self]

theorem outcomeOf_rcaAdd {a b : Str} {va vb : Vec4} (ha : vec4 a = some va) (hb : vec4 b = some vb)
    (r : ClaRegs) : outcomeOf (.rcaAdd a b) r = .ok (.str (rcaResult va vb)) := by
  simp [outcomeOf, ha, hb]

theorem outcomeOf_claSet {a b : Str} {va vb : Vec4} (ha : vec4 a = some va) (hb : vec4 b = some vb)
    (cin : Bit) (r : ClaRegs) : outcomeOf (.claSet a b cin) r = .ok .unit := by
  simp [outcomeOf, valid4_eq_isSome, ha, hb]

theorem outcomeOf_bin2dec {t : Str} {n : Nat} (h : binValue t = some n) (r : ClaRegs) :
    outcomeOf (.bin2dec t) r = .ok (.int n) := by
  simp [outcomeOf, h]

theorem outcomeOf_dec2bin {t : Str} {n : Nat} (h : decValue t = some n) (r : ClaRegs) :
    outcomeOf (.dec2bin t) r = .ok (.str (minbin n)) := by
  simp [outcomeOf, h]

/-- A base-2 numeral that raises nothing has a value (R88). -/
theorem exists_binValue {t : Str} (h : raises (.bin2dec t) = false) : ∃ n, binValue t = some n := by
  rw [← Option.isSome_iff_exists, binValue_isSome]
  simpa [raises] using h

/-- A decimal numeral that raises nothing has a value (R91). -/
theorem exists_decValue {t : Str} (h : raises (.dec2bin t) = false) : ∃ n, decValue t = some n := by
  rw [← Option.isSome_iff_exists, decValue_isSome]
  simpa [raises] using h

/-- The operations of the other units read no register (R119). -/
theorem outcomeOf_of_not_usesCla {i : Instr} (h : usesCla i = false) (r r' : ClaRegs) :
    outcomeOf i r = outcomeOf i r' := by
  cases i with
  | rcaAdd a b => rfl
  | bin2dec t => rfl
  | dec2bin t => rfl
  | claSet a b cin => cases h
  | claCompute => cases h
  | claGet => cases h

/-! ### When an operation answers -/

/-- Delivering an operation's result, when it fits, is the operation's answer. -/
theorem deliver_eq_afterOp {i : Instr} {s : State} {r : Result} (h : outcomeOf i s.cla = .ok r)
    (ho : holdsOutcome s.inst (outcomeOf i s.cla) = true) :
    deliver r (s.withCla (regsAfter i s.cla)) = .next (afterOp i s) := by
  rw [h] at ho
  rw [deliver_eq (s := s.withCla (regsAfter i s.cla)) ho, afterOp, h]

/-- What capacity asks of a decimal numeral: its string, its value and its result (R94, log 5). -/
theorem within_dec2bin {inst : Instance} {t : Str} {n : Nat} (hv : decValue t = some n)
    (hw : within inst (.dec2bin t) = true) :
    holdsStr inst t = true ∧ holdsInt inst n = true ∧ holdsStr inst (minbin n) = true := by
  simpa [within, hv] using hw

theorem exec_dec2bin_of_within {s : State} {t : Str} {n : Nat} (hw : within s.inst (.dec2bin t) = true)
    (hv : decValue t = some n) :
    exec (.dec2bin t) s = .next (s.withResponse (some (.ok (.str (minbin n))))) := by
  obtain ⟨ht, hn, hr⟩ := within_dec2bin hv hw
  have hts : ([t] : List Str).all (holdsStr s.inst) = true := by simpa using ht
  calc exec (.dec2bin t) s
      = deliver (.str (minbin n)) s := by
        rw [exec, execDec2Bin, withOperands_eq _ hts, hv]
        simp only [hn, if_true]
    _ = .next (s.withResponse (some (.ok (.str (minbin n))))) := deliver_eq hr

/-- The converse of `within_of_exec_next`, on every instance, legal or not: an operation within capacity
whose outcome fits is answered. -/
theorem exec_of_holdsOutcome {i : Instr} {s : State} (hw : within s.inst i = true)
    (ho : holdsOutcome s.inst (outcomeOf i s.cla) = true) : exec i s = .next (afterOp i s) := by
  cases hr : raises i with
  | true =>
    rw [exec_of_raises hw hr, afterOp_of_regsAfter_eq (regsAfter_of_raises hr _),
      (outcomeOf_eq_invalidInput i _).2 hr]
  | false =>
    cases i with
    | rcaAdd a b =>
      have hts : ([a, b] : List Str).all (holdsStr s.inst) = true := by simpa [within] using hw
      obtain ⟨va, vb, hva, hvb⟩ := exists_vec4_of_valid hr
      rw [← deliver_eq_afterOp (outcomeOf_rcaAdd hva hvb _) ho, exec, execRcaAdd,
        withOperands_eq _ hts, hva, hvb]
      rfl
    | claSet a b cin =>
      have hts : ([a, b] : List Str).all (holdsStr s.inst) = true := by simpa [within] using hw
      obtain ⟨va, vb, hva, hvb⟩ := exists_vec4_of_valid hr
      rw [← deliver_eq_afterOp (outcomeOf_claSet hva hvb _ _) ho, exec, execClaSet,
        withOperands_eq _ hts, regsAfter, hva, hvb]
    | claCompute => exact exec_claCompute s
    | claGet => exact deliver_eq ho
    | bin2dec t =>
      obtain ⟨n, hn⟩ := exists_binValue hr
      obtain ⟨ht, hi⟩ : holdsStr s.inst t = true ∧ holdsInt s.inst n = true := by
        simpa [within, hn] using hw
      rw [exec_bin2dec_of_holds ht hi hn, afterOp_of_regsAfter_eq rfl, outcomeOf_bin2dec hn]
    | dec2bin t =>
      obtain ⟨n, hn⟩ := exists_decValue hr
      rw [exec_dec2bin_of_within hw hn, afterOp_of_regsAfter_eq rfl, outcomeOf_dec2bin hn]

/-! ### R33's equations -/

theorem storeSignals_coherent (r : ClaRegs) : r.storeSignals.Coherent := ⟨rfl, rfl, rfl, rfl⟩

/-- The reset registers are what `CLA_COMPUTE` makes of them (R32, R118). -/
theorem storeSignals_reset : ClaRegs.reset.storeSignals = ClaRegs.reset := by decide

theorem reset_coherent : ClaRegs.reset.Coherent := storeSignals_reset ▸ storeSignals_coherent ClaRegs.reset

/-- Registers that satisfy the equations for the operands held have the results of some operands. -/
theorem ClaRegs.Coherent.resultsOfSomeOperands {r : ClaRegs} (h : r.Coherent) : r.ResultsOfSomeOperands :=
  ⟨r.A, r.B, r.Cin, h⟩

/-- Storing operands does not touch the results, so they stay those of some operands (R76, D9). -/
theorem storeOperands_resultsOfSomeOperands {r : ClaRegs} (h : r.ResultsOfSomeOperands) (a b : Vec4)
    (cin : Bit) :
    (r.storeOperands a b cin).ResultsOfSomeOperands := h

theorem regsAfter_resultsOfSomeOperands (i : Instr) {r : ClaRegs} (h : r.ResultsOfSomeOperands) :
    (regsAfter i r).ResultsOfSomeOperands := by
  rcases regsAfter_cases i r with h' | h' | ⟨a, b, cin, va, vb, -, h'⟩ <;> rw [h']
  · exact h
  · exact (storeSignals_coherent r).resultsOfSomeOperands
  · exact storeOperands_resultsOfSomeOperands h va vb cin

/-- Only a `CLA_SET` that succeeds can end the equations (R33). -/
theorem regsAfter_coherent {i : Instr} {r : ClaRegs}
    (hset : ∀ a b cin, i = .claSet a b cin → raises i = true) (h : r.Coherent) : (regsAfter i r).Coherent := by
  rcases regsAfter_cases i r with h' | h' | ⟨a, b, cin, va, vb, hi, -⟩
  · rwa [h']
  · rw [h']; exact storeSignals_coherent r
  · rwa [regsAfter_of_raises (hset a b cin hi)]

/-! ### The statements -/

/-- Settles O43: a reset edge and `CLA_COMPUTE` leave results of the operands then held, and every other
step leaves the results alone. -/
theorem stepKeepsResultsOfSomeOperands : Obligations.StepKeepsResultsOfSomeOperands := by
  intro s t h hstep
  rcases step_next hstep with rfl | rfl | ⟨i, -, -, rfl⟩
  · exact reset_coherent.resultsOfSomeOperands
  · exact h
  · exact regsAfter_resultsOfSomeOperands i h

/-- Settles O44: the reset registers satisfy R33's equations. -/
theorem resetHasResultsOfSomeOperands : Obligations.ResetHasResultsOfSomeOperands :=
  reset_coherent.resultsOfSomeOperands

/-- Settles O42: `regsAfter` computes the results anew, leaves every register, or stores operands, and the last
only on a `CLA_SET` that does not raise. -/
theorem resultsStayCoherent : Obligations.ResultsStayCoherent := by
  refine ⟨fun s t h => ?_, fun i s t hs hset h => ?_, reset_coherent⟩
  · rw [exec_next h]; exact storeSignals_coherent s.cla
  · rw [exec_next h]; exact regsAfter_coherent hset hs

/-- Settles O41: by what `regsAfter` writes for each of the three operations. -/
theorem claOperationsFrame : Obligations.ClaOperationsFrame := by
  refine ⟨fun s t a b cin h => ?set, fun s t h => ?compute, fun s t h => ?get⟩
  case set =>
    rw [exec_next h, afterOp_cla, afterOp_inst, afterOp_inputs]
    rcases regsAfter_claSet_cases a b cin s.cla with ⟨-, h'⟩ | ⟨va, vb, -, -, h'⟩ <;> rw [h'] <;> simp
  case compute => rw [exec_next h]; exact ⟨rfl, rfl, rfl, rfl, rfl⟩
  case get => rw [exec_next h]; exact ⟨rfl, rfl, rfl⟩

/-- Settles O40: capacity and outcome of these operations depend on the instance and the operands alone. -/
theorem pureOperationsFrame : Obligations.PureOperationsFrame := by
  intro i hi s t h
  obtain ⟨hw, ho⟩ := within_of_exec_next h
  rw [exec_next h]
  refine ⟨regsAfter_of_not_usesCla hi s.cla, rfl, rfl, fun s' hinst => ?_⟩
  have hout := outcomeOf_of_not_usesCla hi s'.cla s.cla
  rw [exec_of_holdsOutcome (by rwa [hinst]) (by rwa [hinst, hout]),
    afterOp_of_regsAfter_eq (regsAfter_of_not_usesCla hi s'.cla), hout]
  rfl

/-- Settles O1: by the reset state's definition. -/
theorem resetRegistersAreZero : Obligations.ResetRegistersAreZero := ⟨rfl, rfl, rfl, rfl⟩

end Sys2Proof.Machine
end

section
/-! PROOFS. The clock cycle and runs of cycles (70_reset_and_hazards.md R113, R121, R122, R124): a step
by the cycle it takes, what every step keeps, the answers it can give, and the run over the cycles that
present a list of operations. -/

namespace Sys2Proof.Machine

/-! ### A step by its cycle -/

theorem step_of_inputs {s : State} {c : Cycle} {rest : List Cycle} (h : s.inputs = c :: rest) :
    step s = runCycle c (s.withInputs rest) := by
  simp [step, nextCycle, afterTake, h]

theorem runCycle_of_rst {c : Cycle} (h : c.rst = true) (s : State) : runCycle c s = .next (resetEdge s) := by
  simp [runCycle, h]

theorem runCycle_of_command {c : Cycle} (hr : c.rst = false) (hv : c.opValid = true) (s : State) :
    runCycle c s = runCommand c.cmd s := by
  simp [runCycle, hr, hv]

theorem runCycle_of_quiet {c : Cycle} (hr : c.rst = false) (hv : c.opValid = false) (s : State) :
    runCycle c s = .next (idle s) := by
  simp [runCycle, hr, hv]

theorem runCommand_of_op {c : Command} {i : Instr} (h : decode c = .op i) (s : State) :
    runCommand c s = exec i s := by
  simp [runCommand, h]

theorem runCommand_of_reserved {c : Command} {select : BitVec 3} (h : decode c = .reserved select)
    (s : State) : runCommand c s = .refused (.reservedSelect select) := by
  simp [runCommand, h]

/-- A command acts through what it decodes to. -/
theorem runCommand_congr {c c' : Command} (h : decode c = decode c') (s : State) :
    runCommand c s = runCommand c' s := by
  rw [runCommand, runCommand, h]

/-- A step with nothing presented any more is a cycle without a command (log 1). -/
theorem step_of_no_inputs {s : State} (h : s.inputs = []) : step s = .next (idle s) := by
  have hs : afterTake s = s := by rw [afterTake, h, List.tail_nil, ← h]; rfl
  rw [step, hs, nextCycle, h]
  exact runCycle_of_quiet rfl rfl s

/-- The step on a cycle that presents a command. -/
theorem step_commandCycle (s : State) (c : Command) (rest : List Cycle) :
    step (s.withInputs (commandCycle c :: rest)) = runCommand c (s.withInputs rest) := rfl

/-- The step on the cycle that presents a well-formed operation. -/
theorem step_commandCycle_encode (s : State) {i : Instr} (hw : WellFormed i) (rest : List Cycle) :
    step (s.withInputs (commandCycle (encode i) :: rest)) = exec i (s.withInputs rest) := by
  rw [step_commandCycle, runCommand_of_op (decode_encode hw)]

/-! ### What every step keeps, and what it does not read -/

/-- A step leaves the instance and takes the first cycle (R29, R42). -/
theorem step_frame {s t : State} (h : step s = .next t) : t.inst = s.inst ∧ t.inputs = s.inputs.tail := by
  rcases step_next h with rfl | rfl | ⟨i, -, -, rfl⟩ <;> exact ⟨rfl, rfl⟩

/-- The earlier answer has no part in a cycle (R42). -/
theorem runCycle_withResponse (c : Cycle) (s : State) (o : Option OpOutcome) :
    runCycle c (s.withResponse o) = runCycle c s := by
  cases hr : c.rst with
  | true => rw [runCycle_of_rst hr, runCycle_of_rst hr]; rfl
  | false =>
    cases hv : c.opValid with
    | false => rw [runCycle_of_quiet hr hv, runCycle_of_quiet hr hv]; rfl
    | true =>
      rw [runCycle_of_command hr hv, runCycle_of_command hr hv]
      cases hd : decode c.cmd with
      | op i => rw [runCommand_of_op hd, runCommand_of_op hd, exec_withResponse]
      | reserved select => rw [runCommand_of_reserved hd, runCommand_of_reserved hd]

/-! ### The answers (R62) -/

theorem isBinary_minbin (n : Nat) : isBinary (minbin n) = true := by
  have h : binaryNumeral (minbin n) = true := by rw [← binValue_isSome, binValue_minbin]; rfl
  exact isBinary_iff.2 (binaryNumeral_iff.1 h).2

theorem rcaResult_ne_nil (a b : Vec4) : rcaResult a b ≠ [] := by
  have h : 0 < (rcaResult a b).length := by
    rcases rcaResult_shape a b with ⟨hlen, -⟩ | ⟨hlen, -⟩ <;> omega
  exact List.length_pos_iff.1 h

theorem proper_str {inst : Instance} {t : Str} (hb : isBinary t = true) (hne : t ≠ [])
    (hh : holdsStr inst t = true) : (Result.str t).proper inst = true := by
  simp [Result.proper, hb, hne, hh]

theorem proper_pair (inst : Instance) (v : Vec4) (c : Bit) :
    (Result.pair (str4 v) [bit2chr c]).proper inst = true := by
  have hc : isBinary [bit2chr c] = true := by simp [isBinary]
  simp [Result.proper, isBinary_str4, str4_length, hc]

/-- An outcome that fits the instance has the characters and lengths of R62. -/
theorem properResponse_outcomeOf {inst : Instance} {i : Instr} {r : ClaRegs}
    (h : holdsOutcome inst (outcomeOf i r) = true) : properResponse inst (some (outcomeOf i r)) = true := by
  cases hr : raises i with
  | true => rw [(outcomeOf_eq_invalidInput i r).2 hr]; rfl
  | false =>
    cases i with
    | rcaAdd a b =>
      obtain ⟨va, vb, hva, hvb⟩ := exists_vec4_of_valid hr
      rw [outcomeOf_rcaAdd hva hvb] at h ⊢
      exact proper_str (isBinary_rcaResult va vb) (rcaResult_ne_nil va vb) h
    | claSet a b cin =>
      obtain ⟨va, vb, hva, hvb⟩ := exists_vec4_of_valid hr
      rw [outcomeOf_claSet hva hvb]
      rfl
    | claCompute => rfl
    | claGet => exact proper_pair inst r.Sum r.Cout
    | bin2dec t =>
      obtain ⟨n, hn⟩ := exists_binValue hr
      rw [outcomeOf_bin2dec hn] at h ⊢
      exact h
    | dec2bin t =>
      obtain ⟨n, hn⟩ := exists_decValue hr
      rw [outcomeOf_dec2bin hn] at h ⊢
      exact proper_str (isBinary_minbin n) (minbin_ne_nil n) h

/-- Every step answers nothing, or an outcome that fits the instance and has the form of R62. -/
theorem step_response {s t : State} (h : step s = .next t) :
    t.response = none ∨ ∃ o, t.response = some o ∧ holdsOutcome t.inst o = true
      ∧ properResponse t.inst (some o) = true := by
  rcases step_next h with rfl | rfl | ⟨i, -, hexec, rfl⟩
  · exact .inl rfl
  · exact .inl rfl
  · have ho := (within_of_exec_next hexec).2
    exact .inr ⟨_, rfl, ho, properResponse_outcomeOf ho⟩

/-! ### The response ports (R51, R54) -/

/-- Every value on the response ports fits its port of a bounded instance. -/
def RespPorts.Fit (strMax vw : Nat) (p : RespPorts) : Prop :=
  (∀ n, p.rLen = some n → n < 2 ^ Config.lenWidth strMax)
  ∧ (∀ n, p.rChr = some n → n < 2 ^ (8 * strMax))
  ∧ (∀ n, p.rCout = some n → n = 0x30 ∨ n = 0x31)
  ∧ (∀ n, p.rVal = some n → n < 2 ^ vw)

/-- Ports with no result value fit every instance. -/
theorem fit_of_none {strMax vw : Nat} {p : RespPorts} (h1 : p.rLen = none) (h2 : p.rChr = none)
    (h3 : p.rCout = none) (h4 : p.rVal = none) : p.Fit strMax vw := by
  simp [RespPorts.Fit, h1, h2, h3, h4]

/-- The carry-out port carries the code of '0' or '1'. -/
theorem codeOfChr_head_of_isBinary {t : Str} (h : isBinary t = true) {n : Nat}
    (hn : t.head?.map codeOfChr = some n) : n = 0x30 ∨ n = 0x31 := by
  obtain ⟨c, hc, rfl⟩ := Option.map_eq_some_iff.1 hn
  rcases isBinary_iff.1 h c (List.mem_of_mem_head? hc) with rfl | rfl
  · exact .inl rfl
  · exact .inr rfl

theorem respPorts_fit {strMax vw : Nat} {o : OpOutcome} (ho : holdsOutcome (.bounded strMax vw) o = true)
    (hp : properResponse (.bounded strMax vw) (some o) = true) : (respPorts (some o)).Fit strMax vw := by
  have hstr : ∀ {t : Str}, holdsStr (.bounded strMax vw) t = true → t.length ≤ strMax :=
    of_decide_eq_true
  cases o with
  | invalidInput => exact fit_of_none rfl rfl rfl rfl
  | ok r =>
    cases r with
    | unit => exact fit_of_none rfl rfl rfl rfl
    | str t =>
      have ht := hstr ho
      simpa [RespPorts.Fit, respPorts, okStrPorts, okPorts] using
        ⟨lt_two_pow_lenWidth ht, busOfStr_fits ht⟩
    | pair sumBits carryOut =>
      have ht := hstr ho
      simp only [properResponse, Result.proper, Bool.and_eq_true] at hp
      obtain ⟨⟨⟨-, hc⟩, -⟩, -⟩ := hp
      refine ⟨?_, ?_, fun _ => codeOfChr_head_of_isBinary hc, by simp [respPorts, okStrPorts, okPorts]⟩
      · simpa [respPorts, okStrPorts] using lt_two_pow_lenWidth ht
      · simpa [respPorts, okStrPorts, Config.charBits] using busOfStr_fits ht
    | int n => simpa [RespPorts.Fit, respPorts, okPorts] using of_decide_eq_true ho

/-! ### Runs (R121, R124) -/

theorem execList_of_next {i : Instr} {s t : State} (h : exec i s = .next t) (is : List Instr) :
    execList (i :: is) s = execList is t := by
  simp [execList, h]

theorem execList_of_refused {i : Instr} {s : State} {r : Refusal} (h : exec i s = .refused r)
    (is : List Instr) : execList (i :: is) s = .refused r := by
  simp [execList, h]

theorem run_of_next {s t : State} (h : step s = .next t) (k : Nat) :
    Host.Core.run core (k + 1) s = Host.Core.run core k t := by
  have hstep : core.step s = .next t := h
  simp only [Host.Core.run, hstep]

theorem run_of_refused {s : State} {r : Refusal} (h : step s = .refused r) (k : Nat) :
    Host.Core.run core (k + 1) s = .refused r := by
  have hstep : core.step s = .refused r := h
  simp only [Host.Core.run, hstep]

theorem outcomes_of_next {s t : State} (h : step s = .next t) (k : Nat) :
    outcomes (k + 1) s = t.response.toList ++ outcomes k t := by
  simp [outcomes, h]

theorem presented_cons (i : Instr) (is : List Instr) :
    presented (i :: is) = commandCycle (encode i) :: presented is := rfl

/-- A run over the cycles that present operations is the operations in order. -/
theorem run_presented (is : List Instr) (rest : List Cycle) (hw : ∀ i ∈ is, WellFormed i) (s : State) :
    Host.Core.run core is.length (s.withInputs (presented is ++ rest)) = execList is (s.withInputs rest) := by
  induction is generalizing s with
  | nil => rfl
  | cons i is ih =>
    have hstep := step_commandCycle_encode s (hw i (by simp)) (presented is ++ rest)
    have hrest := exec_withInputs i s rest
    rw [exec_withInputs] at hstep
    rw [presented_cons, List.cons_append, List.length_cons]
    rcases exec_cases i s with ⟨h, -⟩ | ⟨h, -⟩ <;> rw [h] at hstep hrest
    · rw [run_of_next hstep, execList_of_next hrest, ih (fun j hj => hw j (List.mem_cons_of_mem _ hj))]
    · rw [run_of_refused hstep, execList_of_refused hrest]
      rfl

/-- Every operation presented within capacity adds one outcome. -/
theorem outcomes_presented_length (is : List Instr) (s : State) (hl : s.inst.legal = true)
    (hw : ∀ i ∈ is, WellFormed i ∧ within s.inst i = true) :
    (outcomes is.length (s.withInputs (presented is))).length = is.length := by
  induction is generalizing s with
  | nil => rfl
  | cons i is ih =>
    obtain ⟨hwf, hin⟩ := hw i (by simp)
    have hstep := step_commandCycle_encode s hwf (presented is)
    rw [exec_withInputs, exec_of_within hl hin] at hstep
    have hrec := ih (afterOp i s) hl (fun j hj => hw j (List.mem_cons_of_mem _ hj))
    rw [presented_cons, List.length_cons, outcomes_of_next hstep, List.length_append, hrec]
    simp [Nat.add_comm]

/-! ### The statements -/

/-- Settles O8: a command acts through what it decodes to, and the decoder reads its format's fields
alone. -/
theorem ignoredFieldsChangeNothing : Obligations.IgnoredFieldsChangeNothing := by
  intro s op l1 b1 l2 b2 l1' b1' l2' b2' cin cin' rest h1 h2 h3
  rw [step_commandCycle, step_commandCycle]
  apply runCommand_congr
  refine decode_congr rfl ?_ ?_ h3
  · intro hc hg; obtain ⟨rfl, rfl⟩ := h1 hc hg; rfl
  · intro hs; obtain ⟨rfl, rfl⟩ := h2 hs; rfl

/-- Settles O9: `rst` and `op_valid` leave the branch that decodes. -/
theorem stepRunsTheDecodedOperation : Obligations.StepRunsTheDecodedOperation := by
  intro s c rest i hin hr hv hd
  rw [step_of_inputs hin, runCycle_of_command hr hv, runCommand_of_op hd]
  rfl

/-- Settles O10: selects 6 and 7 decode to reserved, which has no meaning to run. -/
theorem reservedSelectIsRefused : Obligations.ReservedSelectIsRefused := by
  intro s c rest hin hr hv hop
  have h6 : 6 ≤ c.cmd.op.toNat := by rcases hop with h | h <;> simp [h]
  rw [step_of_inputs hin, runCycle_of_command hr hv, runCommand_of_reserved (decode_of_six_le h6)]

/-- Settles O11: both kinds of cycle end in `idle`. -/
theorem cycleWithoutCommandHolds : Obligations.CycleWithoutCommandHolds := by
  refine ⟨fun s c rest hin hr hv => ?_, fun s hin => ?_⟩
  · rw [step_of_inputs hin, runCycle_of_quiet hr hv]; rfl
  · exact step_of_no_inputs hin

/-- Settles O12: `rst` is looked at before `op_valid`. -/
theorem resetWinsOverACommand : Obligations.ResetWinsOverACommand := by
  intro s c rest hin hr
  rw [step_of_inputs hin, runCycle_of_rst hr]
  rfl

/-- Settles O45: every branch of a step leaves `inst` and the cycles to come, and none reads the
answer. -/
theorem stepTakesOneCycle : Obligations.StepTakesOneCycle :=
  ⟨fun _ _ => step_frame, fun s o => runCycle_withResponse (nextCycle s) (afterTake s) o⟩

/-- Settles O46: a step leaves the instance itself. -/
theorem instanceStaysLegal : Obligations.InstanceStaysLegal :=
  ⟨fun _ _ hl h => (step_frame h).1 ▸ hl, rfl⟩

/-- Settles O47: the answer is none, or the outcome of an operation that fits the instance. -/
theorem answersAreProper : Obligations.AnswersAreProper := by
  intro s t h
  rcases step_response h with hr | ⟨o, hr, -, hp⟩
  · rw [hr]; rfl
  · rw [hr]; exact hp

/-- Settles O48: the first three clauses by the kinds of answer; the bounds because what a step answers
fits the instance and has the characters of R62. -/
theorem responsePortsFit : Obligations.ResponsePortsFit := by
  refine ⟨?valid, ?ok, rfl, fun s t strMax vw hinst h => ?fit⟩
  case valid => rintro (_ | (_ | _ | _ | _) | _) <;> rfl
  case ok => rintro (_ | _ | _ | _) <;> rfl
  case fit =>
    have hinst' : t.inst = .bounded strMax vw := (step_frame h).1.trans hinst
    rcases step_response h with hr | ⟨o, hr, ho, hp⟩ <;> rw [hr]
    · exact fit_of_none rfl rfl rfl rfl
    · rw [hinst'] at ho hp
      exact respPorts_fit ho hp

/-- Settles O49: an induction over the operations, each step running the one its command encodes. -/
theorem runIsTheOperationsInOrder : Obligations.RunIsTheOperationsInOrder :=
  fun is s rest hw => run_presented is rest hw s

/-- Settles O50: an induction over the operations, each adding its outcome in front of the rest. -/
theorem oneOutcomePerOperation : Obligations.OneOutcomePerOperation := outcomes_presented_length

end Sys2Proof.Machine
end

section
/-! PROOFS. Operations of the two adders one after another (40_ripple_carry_adder.md R73;
41_carry_lookahead_adder.md R76 to R84; 70_reset_and_hazards.md R118, R119): each operation's answer,
the register equations as arithmetic, and the full CLA cycle with what it reads and what can stand
between its operations. -/

namespace Sys2Proof.Machine

/-! ### What the operations answer on a legal instance -/

theorem within_claSet_of_vec4 {inst : Instance} {a b : Str} {va vb : Vec4} (hl : inst.legal = true)
    (ha : vec4 a = some va) (hb : vec4 b = some vb) (cin : Bit) : within inst (.claSet a b cin) = true := by
  rw [vec4_eq_some.1 ha, vec4_eq_some.1 hb]
  simp [within, holdsStr_str4 hl]

/-- R76's success case, on every instance that holds the operands. -/
theorem exec_claSet_of_vec4 {s : State} {a b : Str} {va vb : Vec4} {cin : Bit}
    (hw : within s.inst (.claSet a b cin) = true) (ha : vec4 a = some va) (hb : vec4 b = some vb) :
    exec (.claSet a b cin) s
      = .next ((s.withCla (s.cla.storeOperands va vb cin)).withResponse (some (.ok .unit))) := by
  have hout := outcomeOf_claSet ha hb cin s.cla
  rw [exec_of_holdsOutcome hw (by rw [hout]; rfl), afterOp, hout, regsAfter, ha, hb]

/-- R78: the pair is read from `Sum` and `Cout`, and nothing is written. -/
theorem exec_claGet {s : State} (hl : s.inst.legal = true) :
    exec .claGet s = .next (s.withResponse (some (.ok (.pair (str4 s.cla.Sum) [bit2chr s.cla.Cout])))) :=
  exec_of_within hl rfl

/-! ### The ripple-carry adder's result (R73) -/

/-- Both operands are checked and held alike, so their order has no part in the answer. -/
theorem exec_rcaAdd_comm (a b : Str) (s : State) : exec (.rcaAdd a b) s = exec (.rcaAdd b a) s := by
  have hall : ([a, b] : List Str).all (holdsStr s.inst) = ([b, a] : List Str).all (holdsStr s.inst) := by
    simp [Bool.and_comm]
  simp only [exec, execRcaAdd, withOperands, hall]
  cases vec4 a <;> cases vec4 b <;> simp [rcaResult_comm]

/-- The neutral operand: no position generates or passes on a carry. -/
theorem rcaResult_zero (v : Vec4) : rcaResult v 0 = str4 v := by revert v; decide

/-- The only string that `RCA_ADD` answers is the loop's result. -/
theorem outcomeOf_rcaAdd_eq_str {a b t : Str} {r : ClaRegs} (h : outcomeOf (.rcaAdd a b) r = .ok (.str t)) :
    ∃ va vb, t = rcaResult va vb := by
  have hr : raises (.rcaAdd a b) = false := by
    rw [Bool.eq_false_iff, Ne, ← outcomeOf_eq_invalidInput _ r, h]
    simp
  obtain ⟨va, vb, hva, hvb⟩ := exists_vec4_of_valid hr
  rw [outcomeOf_rcaAdd hva hvb] at h
  cases h
  exact ⟨va, vb, rfl⟩

/-! ### The CLA's equations (R77 to R81) -/

theorem claPropagate_vecOf (a0 a1 a2 a3 b0 b1 b2 b3 : Bit) :
    claPropagate (vecOf a0 a1 a2 a3) (vecOf b0 b1 b2 b3)
      = vecOf (a0 ^^ b0) (a1 ^^ b1) (a2 ^^ b2) (a3 ^^ b3) := by
  simp [claPropagate]

theorem claGenerate_vecOf (a0 a1 a2 a3 b0 b1 b2 b3 : Bit) :
    claGenerate (vecOf a0 a1 a2 a3) (vecOf b0 b1 b2 b3)
      = vecOf (a0 && b0) (a1 && b1) (a2 && b2) (a3 && b3) := by
  simp [claGenerate]

theorem claSum_vecOf (p0 p1 p2 p3 cin : Bit) :
    claSum (vecOf p0 p1 p2 p3) cin = vecOf (p0 ^^ cin) (p1 ^^ cin) (p2 ^^ cin) (p3 ^^ cin) := by
  simp [claSum]

theorem claCout_vecOf (p0 p1 p2 p3 g0 g1 g2 g3 : Bit) :
    claCout (vecOf p0 p1 p2 p3) (vecOf g0 g1 g2 g3)
      = (g3 || (g2 && p3) || (g1 && p2 && p3) || (g0 && p1 && p2 && p3)) := by
  simp [claCout]

/-- R80: the sum of products is the nested form. -/
theorem claCout_eq_nested (p g : Vec4) :
    claCout p g
      = (bitAt g 3 || (bitAt p 3 && (bitAt g 2 || (bitAt p 2 && (bitAt g 1 || (bitAt p 1 && bitAt g 0)))))) := by
  revert p g; decide

/-- R81: read with the bits in reverse order, the carry-out is the arithmetic carry. -/
theorem claCout_iff_revBits_carry (a b : Vec4) :
    claCout (claPropagate a b) (claGenerate a b) = true ↔ 16 ≤ (revBits a).toNat + (revBits b).toNat := by
  revert a b; decide

/-! ### The full cycle (R82, R84) -/

/-- The registers after a full cycle. The registers before it have no part in them. -/
def cycleRegs (va vb : Vec4) (cin : Bit) : ClaRegs := (ClaRegs.reset.storeOperands va vb cin).storeSignals

/-- The state after a full cycle. -/
def afterCycle (va vb : Vec4) (cin : Bit) (s : State) : State :=
  (s.withCla (cycleRegs va vb cin)).withResponse
    (some (.ok (.pair (str4 (cycleRegs va vb cin).Sum) [bit2chr (cycleRegs va vb cin).Cout])))

theorem execList_of_within {i : Instr} {s : State} (hl : s.inst.legal = true) (hw : within s.inst i = true)
    (is : List Instr) : execList (i :: is) s = execList is (afterOp i s) :=
  execList_of_next (exec_of_within hl hw) is

/-- The pseudo-operation is its three operations, each only if the one before ended in `Ok` (R66). -/
theorem claAdd_eq (a b : Str) (cin : Bit) (s : State) :
    claAdd a b cin s = thenIfOk (thenIfOk (exec (.claSet a b cin) s) (exec .claCompute)) (exec .claGet) := rfl

section
variable {s : State} {a b : Str} {va vb : Vec4} (hl : s.inst.legal = true)
  (ha : vec4 a = some va) (hb : vec4 b = some vb) (cin : Bit)
include hl ha hb

/-- The cycle in one equation, as the pseudo-operation and as three operations. -/
theorem claAdd_of_vec4 : claAdd a b cin s = .next (afterCycle va vb cin s) := by
  have hset := exec_claSet_of_vec4 (within_claSet_of_vec4 hl ha hb cin) ha hb
  rw [claAdd_eq, hset, thenIfOk_ok rfl, exec_claCompute, thenIfOk_ok rfl]
  exact exec_claGet hl

theorem execList_cycle :
    execList [.claSet a b cin, .claCompute, .claGet] s = .next (afterCycle va vb cin s) := by
  have hset := exec_claSet_of_vec4 (within_claSet_of_vec4 hl ha hb cin) ha hb
  rw [execList_of_next hset, execList_of_next (exec_claCompute _)]
  refine execList_of_next (exec_claGet ?_) []
  exact hl

end

/-- R82's closed form of the pair a cycle answers. -/
theorem cycleRegs_Sum (a0 a1 a2 a3 b0 b1 b2 b3 cin : Bit) :
    (cycleRegs (vecOf a0 a1 a2 a3) (vecOf b0 b1 b2 b3) cin).Sum
      = vecOf (a0 ^^ b0 ^^ cin) (a1 ^^ b1 ^^ cin) (a2 ^^ b2 ^^ cin) (a3 ^^ b3 ^^ cin) := by
  simp only [cycleRegs, ClaRegs.storeSignals_Sum, ClaRegs.storeOperands_A, ClaRegs.storeOperands_B,
    ClaRegs.storeOperands_Cin, claPropagate_vecOf, claSum_vecOf]

theorem cycleRegs_Cout (a0 a1 a2 a3 b0 b1 b2 b3 cin : Bit) :
    (cycleRegs (vecOf a0 a1 a2 a3) (vecOf b0 b1 b2 b3) cin).Cout
      = ((a3 && b3) || ((a2 && b2) && (a3 ^^ b3)) || ((a1 && b1) && (a2 ^^ b2) && (a3 ^^ b3))
        || ((a0 && b0) && (a1 ^^ b1) && (a2 ^^ b2) && (a3 ^^ b3))) := by
  simp only [cycleRegs, ClaRegs.storeSignals_Cout, ClaRegs.storeOperands_A, ClaRegs.storeOperands_B,
    claPropagate_vecOf, claGenerate_vecOf, claCout_vecOf]

/-! ### Operations repeated and out of order (R40, R118) -/

/-- A `CLA_SET` before another leaves the second one's operands to be stored. -/
theorem storeOperands_regsAfter_claSet (a b : Str) (cin : Bit) (r : ClaRegs) (va vb : Vec4) (cin' : Bit) :
    (regsAfter (.claSet a b cin) r).storeOperands va vb cin' = r.storeOperands va vb cin' := by
  rcases regsAfter_claSet_cases a b cin r with ⟨-, h⟩ | ⟨wa, wb, -, -, h⟩ <;> rw [h]
  exact ClaRegs.storeOperands_storeOperands ..

theorem regsAfter_regsAfter (i : Instr) (r : ClaRegs) : regsAfter i (regsAfter i r) = regsAfter i r := by
  cases i with
  | claSet a b cin =>
    rcases regsAfter_claSet_cases a b cin r with ⟨-, h⟩ | ⟨va, vb, ha, hb, h⟩
    · rw [h, h]
    · rw [h]; simp [regsAfter, ha, hb]
  | claCompute => exact ClaRegs.storeSignals_storeSignals r
  | rcaAdd a b => rfl
  | claGet => rfl
  | bin2dec t => rfl
  | dec2bin t => rfl

/-- No operation reads a register that it writes for its outcome. -/
theorem outcomeOf_regsAfter (i : Instr) (r : ClaRegs) : outcomeOf i (regsAfter i r) = outcomeOf i r := by
  cases i <;> rfl

theorem afterOp_afterOp (i : Instr) (s : State) : afterOp i (afterOp i s) = afterOp i s := by
  simp [afterOp, regsAfter_regsAfter, outcomeOf_regsAfter]

/-- Every operation repeated is the operation once (R40). -/
theorem exec_idem {i : Instr} {s t : State} (h : exec i s = .next t) : exec i t = .next t := by
  obtain ⟨hw, ho⟩ := within_of_exec_next h
  obtain rfl := exec_next h
  calc exec i (afterOp i s)
      = .next (afterOp i (afterOp i s)) :=
        exec_of_holdsOutcome hw (by rw [afterOp_cla, outcomeOf_regsAfter]; exact ho)
    _ = .next (afterOp i s) := by rw [afterOp_afterOp]

/-- A `CLA_SET` that stores does not depend on the one before it (R118 (e)). -/
theorem exec_claSet_afterOp {a b a' b' : Str} {va vb : Vec4} (ha : vec4 a' = some va) (hb : vec4 b' = some vb)
    (cin cin' : Bit) (s : State) :
    exec (.claSet a' b' cin') (afterOp (.claSet a b cin) s) = exec (.claSet a' b' cin') s := by
  cases hw : within s.inst (.claSet a' b' cin') with
  | false =>
    rw [outsideCapacityIsRefused _ s hw, outsideCapacityIsRefused _ (afterOp (.claSet a b cin) s) hw]
  | true =>
    rw [exec_claSet_of_vec4 hw ha hb, exec_claSet_of_vec4 (s := afterOp (.claSet a b cin) s) hw ha hb,
      afterOp_cla, storeOperands_regsAfter_claSet]
    rfl

/-! ### Operations that leave a cycle alone (R108, R119) -/

/-- R119, R108, D9: an operation that writes no register. -/
theorem regsAfter_of_undisturbing {i : Instr} (h : usesCla i = false ∨ i = .claGet ∨ raises i = true)
    (r : ClaRegs) : regsAfter i r = r := by
  rcases h with h | rfl | h
  · exact regsAfter_of_not_usesCla h r
  · rfl
  · exact regsAfter_of_raises h r

theorem execList_withResponse (i : Instr) (is : List Instr) (s : State) (o : Option OpOutcome) :
    execList (i :: is) (s.withResponse o) = execList (i :: is) s := by
  rw [execList, execList, exec_withResponse]

/-- Operations that write no register can be left out in front of another operation. -/
theorem execList_skip (xs : List Instr) (i : Instr) (is : List Instr) {s : State} (hl : s.inst.legal = true)
    (hx : ∀ j ∈ xs, (usesCla j = false ∨ j = .claGet ∨ raises j = true) ∧ within s.inst j = true) :
    execList (xs ++ i :: is) s = execList (i :: is) s := by
  induction xs with
  | nil => rfl
  | cons x xs ih =>
    obtain ⟨hx1, hxw⟩ := hx x (by simp)
    have hexec := exec_of_within hl hxw
    rw [afterOp_of_regsAfter_eq (regsAfter_of_undisturbing hx1 _)] at hexec
    have hrec := ih (fun j hj => hx j (List.mem_cons_of_mem _ hj))
    rw [List.cons_append, execList_of_next hexec]
    cases xs with
    | nil => exact execList_withResponse i is s _
    | cons y ys => rw [List.cons_append, execList_withResponse, ← List.cons_append, hrec]

/-! ### The statements -/

/-- Settles O21: the operands are treated alike, 0000 passes the other one through, and a result string is the
loop's result, of 4 characters or of 5 that are too many for an operand. -/
theorem rcaAddCommutes : Obligations.RcaAddCommutes := by
  refine ⟨fun s a b => exec_rcaAdd_comm a b s, fun s a hl ha => ?neutral, fun s t a b r h hr => ?shape⟩
  case neutral =>
    obtain ⟨v, hv⟩ := vec4_of_valid4 ha
    have hzero : vec4 ['0', '0', '0', '0'] = some 0 := by decide
    rw [exec_rcaAdd_of_vec4 hl hv hzero, rcaResult_zero, ← vec4_eq_some.1 hv]
    rfl
  case shape =>
    rw [exec_next h, afterOp_response] at hr
    obtain ⟨va, vb, rfl⟩ := outcomeOf_rcaAdd_eq_str (Option.some.inj hr)
    refine ⟨isBinary_iff.1 (isBinary_rcaResult va vb), ?_⟩
    rcases rcaResult_shape va vb with ⟨hlen, -⟩ | ⟨hlen, hhead, -⟩
    · exact .inl hlen
    · exact .inr ⟨hlen, hhead, by simp [valid4, hlen]⟩

/-- Settles O23: the vectors stored are those of the operands' bits. -/
theorem claSetStoresOperands : Obligations.ClaSetStoresOperands := by
  intro s a0 a1 a2 a3 b0 b1 b2 b3 cin hl
  obtain ⟨hA0, hA1, hA2, hA3⟩ := bitAt_vecOf a0 a1 a2 a3
  obtain ⟨hB0, hB1, hB2, hB3⟩ := bitAt_vecOf b0 b1 b2 b3
  have ha := vec4_operand a0 a1 a2 a3
  have hb := vec4_operand b0 b1 b2 b3
  have hset := exec_claSet_of_vec4 (within_claSet_of_vec4 hl ha hb cin) ha hb
  exact ⟨_, hset, hA0, hA1, hA2, hA3, hB0, hB1, hB2, hB3,
    rfl, rfl, rfl, rfl, rfl, rfl, rfl, rfl⟩

/-- Settles O25: `str4` lists the bits in index order. -/
theorem claGetReturnsSumAndCout : Obligations.ClaGetReturnsSumAndCout := fun _ hl => exec_claGet hl

/-- Settles O26: the propagate vector is the exclusive-or, and one `Cin` at all positions complements
it or not. -/
theorem claSumIsXorOrComplement : Obligations.ClaSumIsXorOrComplement := by
  intro s t h
  rw [exec_next h, ← claPropagate_eq]
  exact claSum_eq _ _

/-- Settles O27: the three clauses are about `claCout` of `A` and `B`, which does not see `Cin`. -/
theorem claCoutIsReversedCarry : Obligations.ClaCoutIsReversedCarry := by
  intro s t h
  rw [exec_next h]
  refine ⟨claCout_eq_nested _ _, claCout_iff_revBits_carry _ _, fun s' t' hA hB h' => ?_⟩
  rw [exec_next h']
  simp [regsAfter, hA, hB]

/-- Settles O29: both forms of the cycle reach `afterCycle`, whose registers are the closed form. -/
theorem claFullCycle : Obligations.ClaFullCycle := by
  intro s a0 a1 a2 a3 b0 b1 b2 b3 cin hl
  have ha := vec4_operand a0 a1 a2 a3
  have hb := vec4_operand b0 b1 b2 b3
  refine ⟨_, claAdd_of_vec4 hl ha hb cin, execList_cycle hl ha hb cin, ?_, rfl, rfl⟩
  rw [afterCycle, State.withResponse_response, cycleRegs_Sum, cycleRegs_Cout, str4_vecOf]

/-- Settles O30: the `CLA_SET` in it raises the exception, and the rest is not run. -/
theorem claAddStopsAtTheError : Obligations.ClaAddStopsAtTheError := by
  intro s a b cin ha hb hv
  have hset := exec_of_raises (s := s) (by simp [within, ha, hb]) (raises_claSet_iff (cin := cin).2 hv)
  rw [claAdd_eq, hset, thenIfOk_invalidInput rfl, thenIfOk_invalidInput rfl]
  rfl

/-- Settles O31: `cycleRegs` has no part of the earlier registers. -/
theorem claCycleForgetsThePast : Obligations.ClaCycleForgetsThePast := by
  intro s s' a b cin hinst hl ha hb
  obtain ⟨va, hva⟩ := vec4_of_valid4 ha
  obtain ⟨vb, hvb⟩ := vec4_of_valid4 hb
  exact ⟨_, _, execList_cycle hl hva hvb cin, execList_cycle (hinst ▸ hl) hva hvb cin, rfl, rfl⟩

/-- Settles O32: in front of the next operation of the cycle, operations that write no register can be
left out. -/
theorem interleavedCycleIsUndisturbed : Obligations.InterleavedCycleIsUndisturbed := by
  intro s a b cin xs ys hl ha hb h
  obtain ⟨va, hva⟩ := vec4_of_valid4 ha
  obtain ⟨vb, hvb⟩ := vec4_of_valid4 hb
  have hl1 : (afterOp (.claSet a b cin) s).inst.legal = true := hl
  have hl2 : (afterOp .claCompute (afterOp (.claSet a b cin) s)).inst.legal = true := hl
  have hset := execList_of_within hl (within_claSet_of_vec4 hl hva hvb cin)
  have hcompute := execList_of_within (i := .claCompute) hl1 rfl
  have hxs := fun j hj => h j (List.mem_append_left ys hj)
  have hys := fun j hj => h j (List.mem_append_right xs hj)
  refine ⟨_, execList_cycle hl hva hvb cin, ?_⟩
  rw [← execList_cycle hl hva hvb cin, List.append_assoc]
  calc execList (.claSet a b cin :: xs ++ (.claCompute :: ys ++ [.claGet])) s
      = execList (xs ++ .claCompute :: (ys ++ [.claGet])) (afterOp (.claSet a b cin) s) := hset _
    _ = execList (.claCompute :: (ys ++ [.claGet])) (afterOp (.claSet a b cin) s) :=
        execList_skip xs _ _ hl1 hxs
    _ = execList (ys ++ [.claGet]) (afterOp .claCompute (afterOp (.claSet a b cin) s)) := hcompute _
    _ = execList [.claGet] (afterOp .claCompute (afterOp (.claSet a b cin) s)) :=
        execList_skip ys _ _ hl2 hys
    _ = execList [.claSet a b cin, .claCompute, .claGet] s := by rw [hset, hcompute]

/-- Settles O33: an operation repeated stores the same again and answers the same. -/
theorem claOperationsAreIdempotent : Obligations.ClaOperationsAreIdempotent :=
  fun _ _ _ _ h => exec_idem h

/-- Settles O34: the reset registers are a fixed point of `CLA_COMPUTE`; the other clauses by the frames of
`CLA_SET`. -/
theorem claOutOfOrder : Obligations.ClaOutOfOrder := by
  refine ⟨⟨_, exec_claGet rfl, rfl, rfl⟩, ⟨_, exec_claCompute _, storeSignals_reset⟩,
    fun s t u u' a b cin h hu hu' => ?get,
    fun s t a b cin h hr => ?failed, fun s t a b a' b' cin cin' h ha hb => ?second⟩
  case get =>
    obtain ⟨-, -, hSum, hCout, -⟩ := claOperationsFrame.1 s t a b cin h
    rw [exec_next hu, exec_next hu']
    simp only [afterOp_response, outcomeOf, hSum, hCout]
  case failed => rw [exec_next_of_raises hr h, exec_withResponse]
  case second =>
    obtain ⟨va, hva⟩ := vec4_of_valid4 ha
    obtain ⟨vb, hvb⟩ := vec4_of_valid4 hb
    rw [exec_next h, exec_claSet_afterOp hva hvb]

set_option maxRecDepth 8000 in
/-- Settles O28: a count over all operands and carry-ins. -/
theorem claDivergesFromArithmetic : Obligations.ClaDivergesFromArithmetic := by
  unfold Obligations.ClaDivergesFromArithmetic
  decide

end Sys2Proof.Machine
end

section
/-! PROOFS. The converter's `DEC2BIN` and its laws with `BIN2DEC` (42_binary_decimal_converter.md R89 to
R92): the shortest numeral, every number's decimal numeral, and both round trips. -/

namespace Sys2Proof.Machine

/-! ### Decimal numerals (R89, R91) -/

/-- The value of a decimal numeral is the sum over its positions (R89). -/
theorem weightedSum_of_decValue {t : Str} {n : Nat} (h : decValue t = some n) : weightedSum 10 t = n := by
  obtain ⟨-, ds, hds, rfl⟩ := decValue_eq_some.1 h
  exact weightedSum_eq (fun _ _ hd => (digit_eq hd).2) hds

/-- A string that meets R91's predicate has the sum over its positions as its value. -/
theorem decValue_of_decimalNumeral {t : Str} (h : decimalNumeral t = true) :
    decValue t = some (weightedSum 10 t) := by
  rw [← decValue_isSome, Option.isSome_iff_exists] at h
  obtain ⟨n, hn⟩ := h
  rw [hn, weightedSum_of_decValue hn]

/-- Every number below 10 has a digit character (R10). -/
theorem digit_get : ∀ d : Fin 10, digit (digitChrs.get d) = some d.val := by decide

/-- A digit character behind a numeral multiplies its value by 10 and adds the digit (R89). -/
theorem decValue_append_digit {t : Str} {c : Chr} {n d : Nat} (ht : decValue t = some n)
    (hc : digit c = some d) : decValue (t ++ [c]) = some (10 * n + d) := by
  obtain ⟨-, ds, hds, rfl⟩ := decValue_eq_some.1 ht
  have hdc : digitList digit [c] = some [d] := by simp [digitList, hc]
  refine decValue_eq_some.2 ⟨by simp, ds ++ [d], digitList_append _ _ _ hds hdc, ?_⟩
  rw [positional_append]
  simp [positional, Nat.mul_comm]

theorem decValue_singleton {c : Chr} {d : Nat} (hc : digit c = some d) : decValue [c] = some d :=
  decValue_eq_some.2 ⟨by simp, [d], by simp [digitList, hc], by simp [positional]⟩

/-- Every number has a decimal numeral: that of its tenth, and its last digit. -/
theorem exists_decValue_eq (n : Nat) : ∃ t, decValue t = some n := by
  induction n using Nat.strong_induction_on with
  | _ n ih =>
    have hc := digit_get ⟨n % 10, by omega⟩
    rcases Nat.lt_or_ge n 10 with hlt | hge
    · exact ⟨[_], by rw [decValue_singleton hc]; simp [Nat.mod_eq_of_lt hlt]⟩
    · obtain ⟨t, ht⟩ := ih (n / 10) (by omega)
      exact ⟨t ++ [_], by rw [decValue_append_digit ht hc, Nat.div_add_mod]⟩

/-! ### Base-2 numerals and `minbin` (R90) -/

/-- A numeral with a leading '1' is the numeral of its value. -/
theorem eq_minbin_of_binValue {t : Str} {n : Nat} (hv : binValue t = some n) (hh : t.head? = some '1') :
    t = minbin n := by
  have hpos : 1 ≤ n := le_trans Nat.one_le_two_pow (binValue_bounds hv hh).1
  exact binValue_unique hv (binValue_minbin n) hh (minbin_head hpos)

/-- A leading '0' adds nothing to the value (R88). -/
theorem binValue_of_zero_cons {t : Str} {n : Nat} (h : binValue ('0' :: t) = some n) (hn : n ≠ 0) :
    binValue t = some n := by
  obtain ⟨-, ds, hds, rfl⟩ := binValue_eq_some.1 h
  have hzero : bitDigit '0' = some 0 := bitDigit_bit2chr false
  simp only [digitList, hzero] at hds
  split at hds
  · rename_i d es hd hes
    cases hd; cases hds
    rw [positional_cons, zero_mul, zero_add] at hn ⊢
    refine binValue_eq_some.2 ⟨?_, es, hes, rfl⟩
    rintro rfl
    cases hes
    exact hn rfl
  · cases hds

/-- Without its leading zeros a numeral of a value other than 0 is the shortest one. -/
theorem dropWhile_zero_eq_minbin {b : Str} {n : Nat} (hv : binValue b = some n) (hn : n ≠ 0) :
    b.dropWhile (fun c => c == '0') = minbin n := by
  induction b with
  | nil => simp [binValue, digitsOf] at hv
  | cons c b ih =>
    have hnum : binaryNumeral (c :: b) = true := by rw [← binValue_isSome, hv]; rfl
    rcases (binaryNumeral_iff.1 hnum).2 c (by simp) with rfl | rfl
    · rw [List.dropWhile_cons_of_pos (by simp)]
      exact ih (binValue_of_zero_cons hv hn)
    · rw [List.dropWhile_cons_of_neg (by simp)]
      exact eq_minbin_of_binValue hv rfl

/-! ### The statements -/

/-- Settles O36: the answer is `minbin` of the value, whose value, head and length are known. -/
theorem dec2BinMeaning : Obligations.Dec2BinMeaning := by
  intro s t hne hall hw
  have hv := decValue_of_decimalNumeral (decimalNumeral_iff.2 ⟨hne, hall⟩)
  have hbin := binValue_minbin (weightedSum 10 t)
  refine ⟨minbin (weightedSum 10 t), exec_dec2bin_of_within hw hv, minbin_ne_nil _,
    isBinary_iff.1 (isBinary_minbin _),
    weightedSum_of_binValue hbin, fun h0 => by rw [h0, minbin_zero], fun h1 => ?_⟩
  exact ⟨minbin_head h1, binValue_bounds hbin (minbin_head h1)⟩

/-- Settles O37: a leading '1' makes the value positive, and the numeral of a positive value is unique.
-/
theorem minimalNumeralIsUnique : Obligations.MinimalNumeralIsUnique := fun _ _ => eq_minbin_of_binValue

/-- Settles O38: decimal numerals are built digit by digit; capacity for `DEC2BIN` covers the way back.
-/
theorem conversionRoundTrip : Obligations.ConversionRoundTrip := by
  refine ⟨exists_decValue_eq, fun s t n hv hw => ⟨_, exec_dec2bin_of_within hw hv, rfl, ?_⟩⟩
  obtain ⟨-, hn, hr⟩ := within_dec2bin hv hw
  exact exec_bin2dec_of_holds hr hn (binValue_minbin n)

/-- Settles O39: without its leading zeros the base-2 numeral starts with '1', so it is the shortest
one. -/
theorem leadingZerosAreLost : Obligations.LeadingZerosAreLost := by
  intro s b t n hb ht hw
  rw [exec_dec2bin_of_within hw ht]
  by_cases hn : n = 0
  · subst hn; rw [if_pos rfl, minbin_zero]; rfl
  · rw [if_neg hn, dropWhile_zero_eq_minbin hb hn]; rfl

end Sys2Proof.Machine
end
